-- ==== Sys2Proof/Word.lean ====
section
/-! DEFINITION. The word width W of an instance (00_scope.md R7, R8), the word type of that width
(41_datapath.md R81), bytes and bus words. -/

namespace Sys2Proof

/-- One byte of KEY, BIN or BOUT, or one byte of an S entry. -/
abbrev Byte := BitVec 8

/-- The 32 data bits of one host port location (20_memory.md R42). -/
abbrev BusWord := BitVec 32

/-- The synthesis parameter W, one of five values (00_scope.md R7). -/
inductive WordWidth where
  | w8
  | w16
  | w32
  | w64
  | w128
deriving DecidableEq, Repr

/-- W as a number. -/
def WordWidth.bits : WordWidth → Nat
  | .w8 => 8
  | .w16 => 16
  | .w32 => 32
  | .w64 => 64
  | .w128 => 128

/-- WB = W/8, the bytes of one word (00_scope.md R8). -/
def WordWidth.bytes : WordWidth → Nat
  | .w8 => 1
  | .w16 => 2
  | .w32 => 4
  | .w64 => 8
  | .w128 => 16

/-- LMAX, the words of the hidden RAM L (00_scope.md R12). -/
def WordWidth.lmax : WordWidth → Nat
  | .w8 => 255
  | .w16 => 128
  | .w32 => 64
  | .w64 => 32
  | .w128 => 16

/-- A word of the instance: an unsigned number below 2^W (41_datapath.md R81). `+`, `-`, `*` and
`^^^` of `BitVec` are the word operations of R82 to R85. -/
abbrev Word (w : WordWidth) := BitVec w.bits

end Sys2Proof
end

