-- ==== Sys2Proof/Syntax.lean ====
section
/-! DEFINITION. The instructions: one constructor per row of spec/opcode_table.json. Seven command
words (30_encoding.md R65) and the two host transactions (30_encoding.md R70). -/

namespace Sys2Proof

/-- What the block decodes (30_encoding.md R63). Command words have no operand fields (R69). -/
inductive Instr where
  /-- NOP, command word 0x0 (42_control.md R97). -/
  | nop
  /-- SETUP5, command word 0x4 (43_key_schedule.md R104). -/
  | setup5
  /-- SETUP6, command word 0x6 (43_key_schedule.md R105). -/
  | setup6
  /-- ENC5, command word 0x8 (44_rc5.md R113). -/
  | enc5
  /-- DEC5, command word 0x9 (44_rc5.md R114). -/
  | dec5
  /-- ENC6, command word 0xA (45_rc6.md R118). -/
  | enc6
  /-- DEC6, command word 0xB (45_rc6.md R119). -/
  | dec6
  /-- RD, a read of the location with word index `q`; `data` is the transaction word's DATA field,
  which must be 0 and is ignored (30_encoding.md R70, 40_host_port.md R78). -/
  | rd (q : BitVec 12) (data : BusWord)
  /-- WR, a write of `data` to the location with word index `q` (40_host_port.md R79). -/
  | wr (q : BitVec 12) (data : BusWord)
deriving DecidableEq, Repr

end Sys2Proof
end

