-- ==== Sys2Proof/WellFormed.lean ====
section
/-! DEFINITION. Which instructions a host may write down. The one demand the spec makes on a term is
30_encoding.md R70: the DATA field "must be 0 for RD and is ignored". -/

namespace Sys2Proof

/-- The DATA field of a read is 0 (30_encoding.md R70). The other rows have no reserved field that a
term could carry. -/
def Instr.wellFormed : Instr → Bool
  | .nop => true
  | .setup5 => true
  | .setup6 => true
  | .enc5 => true
  | .dec5 => true
  | .enc6 => true
  | .dec6 => true
  | .rd _ data => data == 0
  | .wr _ _ => true

end Sys2Proof
end

