-- ==== Sys2Proof/Decode.lean ====
section
/-! DEFINITION. The decoder of command words (30_encoding.md R64 to R66, R72) and of transaction words
(R70), and after it the encoder, written from the field tables of R64, R65 and R70. -/

namespace Sys2Proof

/-- Why a word is no instruction. The machine itself never stops on one of these: an illegal command
word is an event of WR (42_control.md R98). -/
inductive Reject where
  /-- A command word with a bit of 31:4 set (30_encoding.md R66). -/
  | reservedBitsSet
  /-- A command word whose opcode is none of the seven (30_encoding.md R66). -/
  | unlistedOpcode
  /-- A number that does not fit its format (30_encoding.md R71). -/
  | tooWide
  /-- A length that is neither 32 nor 45 bits (30_encoding.md R71). -/
  | noSuchFormat
deriving DecidableEq, Repr

/-- `Decode(d)` of 30_encoding.md R72. -/
def decodeCommand (d : BusWord) : Except Reject Instr :=
  if d.extractLsb' 4 28 ≠ 0 then .error .reservedBitsSet
  else
    match (d.extractLsb' 0 4).toNat with
    | 0b0000 => .ok .nop
    | 0b0100 => .ok .setup5
    | 0b0110 => .ok .setup6
    | 0b1000 => .ok .enc5
    | 0b1001 => .ok .dec5
    | 0b1010 => .ok .enc6
    | 0b1011 => .ok .dec6
    | _ => .error .unlistedOpcode

/-- The transaction word T: WE is bit 44, ADDR bits 43:32, DATA bits 31:0 (30_encoding.md R70). Every
45-bit word is a transaction; the DATA of a read is kept in the term and ignored by the machine
(assumption log 15). -/
def decodeTransaction (t : BitVec 45) : Instr :=
  if t.getLsbD 44 then .wr (t.extractLsb' 32 12) (t.extractLsb' 0 32)
  else .rd (t.extractLsb' 32 12) (t.extractLsb' 0 32)

/-- Decode a word given as its length and its bits. "Every command word is exactly 32 bits and every
transaction word exactly 45 bits" (30_encoding.md R71). -/
def decodeWord (nbits w : Nat) : Except Reject Instr :=
  if nbits = 32 then
    if w < 2 ^ 32 then decodeCommand (BitVec.ofNat 32 w) else .error .tooWide
  else if nbits = 45 then
    if w < 2 ^ 45 then .ok (decodeTransaction (BitVec.ofNat 45 w)) else .error .tooWide
  else .error .noSuchFormat

/-- The length in bits of the format a table row of `nbits` bits belongs to: the table gives a
transaction word's 45 bits in whole bytes, 48. -/
def formatBits (nbits : Nat) : Nat :=
  if nbits ≤ 32 then 32 else if nbits ≤ 48 then 45 else nbits

/-- The instruction read from a word of spec/opcode_table.json. -/
def decodeTableWord (nbits w : Nat) : Option Instr :=
  match decodeWord (formatBits nbits) w with
  | .ok i => some i
  | .error _ => none

/-- A command word from its fields: RSV = 0, CLS, VAR, DIR (30_encoding.md R64). -/
def commandWord (cls : BitVec 2) (var dir : BitVec 1) : BusWord :=
  0#28 ++ cls ++ var ++ dir

/-- A transaction word from its fields: WE, ADDR, DATA (30_encoding.md R70). -/
def transactionWord (we : BitVec 1) (q : BitVec 12) (data : BusWord) : BitVec 45 :=
  we ++ q ++ data

/-- The word of an instruction, as its length and its bits. Command words by the CLS, VAR and DIR
columns of 30_encoding.md R65, transactions by R70. -/
def encode : Instr → Nat × Nat
  | .nop => (32, (commandWord 0b00 0 0).toNat)
  | .setup5 => (32, (commandWord 0b01 0 0).toNat)
  | .setup6 => (32, (commandWord 0b01 1 0).toNat)
  | .enc5 => (32, (commandWord 0b10 0 0).toNat)
  | .dec5 => (32, (commandWord 0b10 0 1).toNat)
  | .enc6 => (32, (commandWord 0b10 1 0).toNat)
  | .dec6 => (32, (commandWord 0b10 1 1).toNat)
  | .rd q data => (45, (transactionWord 0 q data).toNat)
  | .wr q data => (45, (transactionWord 1 q data).toNat)

end Sys2Proof
end

