-- ==== Sys2Proof/Config.lean ====
section
/-! DEFINITION. The values the spec leaves free (92_eei_decisions.md, open parameters;
93_implementation_defined.md part 2). They are constants with no body: no proof can see a value of
them, so a claim holds whatever they are. -/

namespace Sys2Proof

/-- `initRam` (70_reset_and_hazards.md R143, 10_state.md R38): the byte that the location at host
address `a` has held since power-on. One stable draw per location. Assumption log 3. -/
opaque Config.initRam (a : Nat) : Byte

/-- A later free draw: the byte that draw number `n` leaves at host address `a`. Used for the output
of an out-of-contract crypt command (42_control.md R101) and for the locations of a command aborted
by reset (70_reset_and_hazards.md R142). Assumption log 4. -/
opaque Config.freeByte (n a : Nat) : Byte

end Sys2Proof
end

