-- ==== Sys2Proof/Machine/State.lean ====
section
/-! DEFINITION. The state of RC56-CORE as plain data (10_state.md), the reasons a step can stop, and the
state after reset (10_state.md R41, 70_reset_and_hazards.md R143). -/

namespace Sys2Proof.Machine

/-- CTRL (10_state.md R27). Bits 31:2 are reserved, read 0 and hold nothing. -/
structure Ctrl where
  /-- bit 0, interrupt enable -/
  ie : Bool
  /-- bit 1, host byte-lane order: false little-endian lanes, true big-endian lanes -/
  hbe : Bool
deriving DecidableEq, Repr

/-- PARAM (10_state.md R28): every bit is a field. -/
structure Param where
  /-- bits 7:0, w -/
  pw : BitVec 8
  /-- bits 19:8, r -/
  pr : BitVec 12
  /-- bits 31:20, b -/
  pb : BitVec 12
deriving DecidableEq, Repr

/-- STATUS (10_state.md R30). Bits 31:5 are reserved, read 0 and hold nothing. -/
structure Status where
  /-- bit 0, a command is in flight -/
  busy : Bool
  /-- bit 1, a command completed -/
  done : Bool
  /-- bit 2, unsupported parameters -/
  err : Bool
  /-- bit 3, illegal command word -/
  ill : Bool
  /-- bit 4, host access collision -/
  coll : Bool
deriving DecidableEq, Repr

/-- The operations OPL can hold (10_state.md R37): the commands that are in flight between acceptance
and completion. -/
inductive EngineOp where
  | setup5
  | setup6
  | enc5
  | dec5
  | enc6
  | dec6
deriving DecidableEq, Repr

/-- The sequencer phase (10_state.md R36). A completion is one atomic step (20_memory.md R58), so
between steps the sequencer is idle or has a command in flight. -/
inductive Phase where
  | idle
  | inFlight
deriving DecidableEq, Repr

/-- The hidden registers (10_state.md R35, R36). Words are held zero-extended to 128 bits. No rule
reads a value an earlier command left here. Assumption log 5. -/
structure Hidden where
  /-- datapath word A -/
  a : BitVec 128
  /-- datapath word B -/
  b : BitVec 128
  /-- datapath word C -/
  c : BitVec 128
  /-- datapath word D -/
  d : BitVec 128
  /-- key-schedule cursor i, below SMAX -/
  i : Nat
  /-- key-schedule cursor j, below LMAX -/
  j : Nat
  /-- the iteration counter of the mix, below 3·SMAX, or the round counter -/
  count : Nat
  /-- the sequencer phase -/
  phase : Phase
  /-- the key-word RAM L, LMAX words -/
  l : List (BitVec 128)
deriving DecidableEq, Repr

/-- The bytes of KEY, BIN, BOUT and S whose content is known, by host byte address: addresses strictly
rising. An address that is not listed still holds its power-on draw `Config.initRam`, which is no
known value. Assumption log 3, layout of S in log 13. -/
abbrev Memory := List Host.Cell

/-- The canonical form: addresses strictly rising. What an unlisted address holds is "unknown", which
no entry can equal, so nothing else is asked of an entry. -/
abbrev Memory.wf (m : Memory) : Prop := List.Pairwise (fun x y => x.1 < y.1) m

/-- The sizes of a host access that is not a transaction of this port (20_memory.md R54). -/
inductive NarrowSize where
  | byte
  | half
deriving DecidableEq, Repr

/-- What the outside world presents, one item a step, and whose turn it is (10_state.md R25).
Assumption log 2. -/
inductive Input where
  /-- the host presents a transaction word (30_encoding.md R70) -/
  | transaction (t : BitVec 45)
  /-- no transaction: the ENGINE may take its step (42_control.md R99) -/
  | engine
  /-- the level of the reset input at a clock edge (70_reset_and_hazards.md R141) -/
  | rst (level : Bool)
  /-- a host access narrower than 32 bits (20_memory.md R54) -/
  | narrow (size : NarrowSize) (addr : BitVec 14) (we : Bool) (data : BitVec 16)
  /-- any other signal sequence (93_implementation_defined.md U12) -/
  | otherSignals
deriving DecidableEq, Repr

/-- The whole state of one instance. -/
structure State where
  /-- the synthesis parameter W, reported by CFG (10_state.md R26) -/
  width : WordWidth
  /-- CTRL (10_state.md R27) -/
  ctrl : Ctrl
  /-- PARAM (10_state.md R28) -/
  param : Param
  /-- STATUS (10_state.md R30) -/
  status : Status
  /-- OPL (10_state.md R37); `none` before any command -/
  opl : Option EngineOp
  /-- KEY, BIN, BOUT and S (10_state.md R31 to R34) -/
  mem : Memory
  /-- the hidden registers and L (10_state.md R35, R36) -/
  hidden : Hidden
  /-- the level of `rst` as last sampled (70_reset_and_hazards.md R141) -/
  rst : Bool
  /-- RDATA, what the latest read returned (30_encoding.md R70); assumption log 6 -/
  rdata : BusWord
  /-- the inputs still to come; when it is empty only the ENGINE can move. The model's own; log 2 -/
  inputs : List Input
  /-- the number of the next free draw. The model's own; log 4 -/
  draws : Nat
deriving DecidableEq, Repr

/-- Why the machine stops with a fault: never. "The block raises no trap" (60_exceptions.md R123) and
no behaviour of it is a fault (93_implementation_defined.md), so the type has no constructor.
Assumption log 12. -/
inductive Fault where
deriving DecidableEq, Repr

/-- Why a step has no meaning. -/
inductive Refusal where
  /-- Raised by an arm of `exec` whose instruction has no meaning yet; no arm does. Safe. -/
  | notModelled (mnemonic : String)
  /-- Raised by `step` on a host access narrower than 32 bits: "a model refuses it" (20_memory.md R54).
  Safe. Assumption log 11. -/
  | narrowAccess
  /-- Raised by `step` on any other signal sequence outside the transaction abstraction
  (93_implementation_defined.md U12). Safe. Assumption log 11. -/
  | outsideTransactions
deriving DecidableEq, Repr

/-- The hidden registers right after reset. The spec leaves them unspecified; zero is the model's
choice (assumption log 5). -/
def Hidden.reset (w : WordWidth) : Hidden where
  a := 0
  b := 0
  c := 0
  d := 0
  i := 0
  j := 0
  count := 0
  phase := .idle
  l := List.replicate w.lmax 0

/-- The state after the first reset of an instance of width `w` (10_state.md R41,
70_reset_and_hazards.md R143, R144): registers 0, no command in flight, every byte of the buffers and
of S at its power-on draw. -/
def State.afterReset (w : WordWidth) : State where
  width := w
  ctrl := { ie := false, hbe := false }
  param := { pw := 0, pr := 0, pb := 0 }
  status := { busy := false, done := false, err := false, ill := false, coll := false }
  opl := none
  mem := []
  hidden := Hidden.reset w
  rst := false
  rdata := 0
  inputs := []
  draws := 0

/-- The reset state of the instance W = 32. Which of the five instances this is, is the model's choice
(assumption log 1); `State.afterReset` gives each of them. -/
def State.reset : State := State.afterReset .w32

end Sys2Proof.Machine
end

