-- ==== Sys2Proof/Machine/Ops.lean ====
section
/-! DEFINITION. The shared operations on memory: one byte, runs of bytes, little-order numbers, and free
draws. Every buffer, window and key-table access is built from these. There is no exception entry to
model (60_exceptions.md R132); the events that take its place are in Machine/Flags.lean. -/

namespace Sys2Proof.Machine

/-- The byte known to be at address `a`, if any. -/
def Memory.known : Memory → Nat → Option Byte
  | [], _ => none
  | (k, b) :: m, a => if k = a then some b else Memory.known m a

/-- The byte at address `a`: the last one written there, or else the power-on draw (10_state.md R38). -/
def Memory.read (m : Memory) (a : Nat) : Byte := (m.known a).getD (Config.initRam a)

/-- Store one byte, keeping addresses strictly rising. -/
def Memory.write : Memory → Nat → Byte → Memory
  | [], a, v => [(a, v)]
  | (k, b) :: m, a, v =>
    if a < k then (a, v) :: (k, b) :: m
    else if a = k then (a, v) :: m
    else (k, b) :: Memory.write m a v

/-- Store a run of bytes from address `a` up. -/
def Memory.writeBytes (m : Memory) (a : Nat) : List Byte → Memory
  | [] => m
  | v :: vs => (Memory.writeBytes m (a + 1) vs).write a v

/-- The `n` bytes from address `a` up. -/
def Memory.readBytes (m : Memory) (a : Nat) : Nat → List Byte
  | 0 => []
  | n + 1 => m.read a :: Memory.readBytes m (a + 1) n

/-- A byte string as a number, first byte least significant (41_datapath.md R90). -/
def fromLE : List Byte → Nat
  | [] => 0
  | b :: bs => b.toNat + 256 * fromLE bs

/-- The `n` low bytes of a number, least significant first (41_datapath.md R91). -/
def toLE : Nat → Nat → List Byte
  | 0, _ => []
  | n + 1, v => BitVec.ofNat 8 v :: toLE n (v / 256)

/-- `MemRead(buf, i, n)` of 00_scope.md R17, as a number; `a` is the host address of byte i of buf. -/
def Memory.readLE (m : Memory) (a n : Nat) : Nat := fromLE (m.readBytes a n)

/-- `n` free bytes for the addresses from `a` up, of draw number `d` (10_state.md R38). -/
def drawBytes (d a : Nat) : Nat → List Byte
  | 0 => []
  | n + 1 => Config.freeByte d a :: drawBytes d (a + 1) n

end Sys2Proof.Machine
end

