-- ==== Sys2Proof/Machine/Operands.lean ====
section
/-! DEFINITION. Where operands come from: the constants derived from W (00_scope.md R8), the host
address map (20_memory.md R44, 40_host_port.md R76), byte lanes (R75), words packed in buffers
(41_datapath.md R90 to R92), entries and slices of S (20_memory.md R50), and the parameters w, r, b
(30_encoding.md R68). -/

namespace Sys2Proof

/-- LGW = log2 W (00_scope.md R8). -/
def WordWidth.lgw : WordWidth → Nat
  | .w8 => 3
  | .w16 => 4
  | .w32 => 5
  | .w64 => 6
  | .w128 => 7

/-- NSW = max(1, W/32), the host locations of one key-table entry (00_scope.md R8). -/
def WordWidth.nsw (w : WordWidth) : Nat := max 1 (w.bits / 32)

namespace Machine

/-- SMAX, the entries of the key-table RAM (00_scope.md R11). -/
abbrev smax : Nat := 508

/-- Host address of KEY[0] (20_memory.md R46). -/
abbrev keyBase : Nat := 0x100
/-- Host address of BIN[0] (20_memory.md R47). -/
abbrev binBase : Nat := 0x200
/-- Host address of BOUT[0] (20_memory.md R48). -/
abbrev boutBase : Nat := 0x240
/-- Host address of the first location of the S window (20_memory.md R50). -/
abbrev sBase : Nat := 0x2000

/-- Host address of the first byte of `S[k]`: entry k starts at location q = NSW·k (20_memory.md R50). -/
def sAddr (w : WordWidth) (k : Nat) : Nat := sBase + 4 * (w.nsw * k)

/-- How many bytes of an S-window location belong to the entry: 4, or WB when W < 32 (20_memory.md R50). -/
def sliceBytes (w : WordWidth) : Nat := min 4 w.bytes

/-! ## Words in buffers and in S -/

/-- `PackLE(buf, i)`, with `a` the host address of byte i (41_datapath.md R90). -/
def packLE (w : WordWidth) (m : Memory) (a : Nat) : Word w := BitVec.ofNat w.bits (m.readLE a w.bytes)

/-- The WB bytes of a word, least significant first. -/
def wordBytes {w : WordWidth} (x : Word w) : List Byte := toLE w.bytes x.toNat

/-- `UnpackLE(buf, i, x)`, with `a` the host address of byte i (41_datapath.md R91). -/
def unpackLE {w : WordWidth} (m : Memory) (a : Nat) (x : Word w) : Memory := m.writeBytes a (wordBytes x)

/-- `S[k]` as a whole entry (10_state.md R32). -/
def sEntry (w : WordWidth) (m : Memory) (k : Nat) : Word w := packLE w m (sAddr w k)

/-- `S[k+0], S[k+1], …` take the values of a list, in one go (43_key_schedule.md R110). -/
def writeTable {w : WordWidth} (m : Memory) : Nat → List (Word w) → Memory
  | _, [] => m
  | k, x :: xs => unpackLE (writeTable m (k + 1) xs) (sAddr w k) x

/-- The entries `S[0..n-1]` become draw number `d` (70_reset_and_hazards.md R142). -/
def drawTable (w : WordWidth) (d : Nat) (m : Memory) : Nat → Memory
  | 0 => m
  | n + 1 => (drawTable w d m n).writeBytes (sAddr w n) (drawBytes d (sAddr w n) w.bytes)

/-- One byte of the packed key: `KEY[i]` below b, 0 from b up (41_datapath.md R92). -/
def keyByteBelow (m : Memory) (b i : Nat) : Byte := if i < b then m.read (keyBase + i) else 0

/-- The `n` packed key bytes from index `i` up. -/
def keyBytes (m : Memory) (b i : Nat) : Nat → List Byte
  | 0 => []
  | n + 1 => keyByteBelow m b i :: keyBytes m b (i + 1) n

/-- `KeyWord(k, b)` (41_datapath.md R92). -/
def keyWord (w : WordWidth) (m : Memory) (b k : Nat) : Word w :=
  BitVec.ofNat w.bits (fromLE (keyBytes m b (k * w.bytes) w.bytes))

/-- c = max(1, ceil(b / WB)) (00_scope.md R12). -/
def keyWordCount (w : WordWidth) (b : Nat) : Nat := max 1 ((b + w.bytes - 1) / w.bytes)

/-! ## Parameters -/

/-- w, zero-extended from PARAM.PW (30_encoding.md R68). -/
def Param.w (p : Param) : Nat := p.pw.toNat
/-- r, zero-extended from PARAM.PR (30_encoding.md R68). -/
def Param.r (p : Param) : Nat := p.pr.toNat
/-- b, zero-extended from PARAM.PB (30_encoding.md R68). -/
def Param.b (p : Param) : Nat := p.pb.toNat

/-- `SetupValid()` (42_control.md R100). -/
def setupValid (w : WordWidth) (p : Param) : Bool :=
  p.w == w.bits && decide (p.r ≤ 255) && p.r % 4 == 0 && decide (p.b ≤ 255)

/-- `CryptInContract()` (42_control.md R101). -/
def cryptInContract (w : WordWidth) (p : Param) : Bool :=
  p.w == w.bits && decide (p.r ≤ 255) && p.r % 4 == 0

/-! ## Byte lanes -/

/-- `BytesOf(d, hbe)`: the bytes y0, y1, y2, y3 of a location's data (40_host_port.md R75). -/
def bytesOf (d : BusWord) (hbe : Bool) : List Byte :=
  if hbe then [d.extractLsb' 24 8, d.extractLsb' 16 8, d.extractLsb' 8 8, d.extractLsb' 0 8]
  else [d.extractLsb' 0 8, d.extractLsb' 8 8, d.extractLsb' 16 8, d.extractLsb' 24 8]

/-- `DataOf(y0, y1, y2, y3, hbe)` (40_host_port.md R75). -/
def dataOf (y0 y1 y2 y3 : Byte) (hbe : Bool) : BusWord :=
  if hbe then y0 ++ y1 ++ y2 ++ y3 else y3 ++ y2 ++ y1 ++ y0

/-! ## The host address map -/

/-- The kinds of host location (40_host_port.md R76), with the window's own index. -/
inductive Region where
  | cfg
  | ctrl
  | param
  | cmd
  | status
  | keyW (n : Nat)
  | binW (n : Nat)
  | boutW (n : Nat)
  | sWin (q : Nat)
  | rsvd
deriving DecidableEq, Repr

/-- `Region(a)` for the byte address `a` (40_host_port.md R76). -/
def regionAt (w : WordWidth) (a : Nat) : Region :=
  if a = 0x000 then .cfg
  else if a = 0x004 then .ctrl
  else if a = 0x008 then .param
  else if a = 0x00C then .cmd
  else if a = 0x010 then .status
  else if 0x100 ≤ a ∧ a ≤ 0x1FC then .keyW ((a - 0x100) / 4)
  else if 0x200 ≤ a ∧ a ≤ 0x23C then .binW ((a - 0x200) / 4)
  else if 0x240 ≤ a ∧ a ≤ 0x27C then .boutW ((a - 0x240) / 4)
  else if 0x2000 ≤ a ∧ a ≤ 0x3FFC ∧ (a - 0x2000) / 4 / w.nsw < smax then .sWin ((a - 0x2000) / 4)
  else .rsvd

/-- The region of the location with word index `q`, at byte address 4·q (20_memory.md R42). -/
def region (w : WordWidth) (q : BitVec 12) : Region := regionAt w (4 * q.toNat)

/-- Locations whose read collides with a command in flight (40_host_port.md R77). -/
def Region.readGuarded : Region → Bool
  | .keyW _ => true
  | .binW _ => true
  | .boutW _ => true
  | .sWin _ => true
  | .cfg => false
  | .ctrl => false
  | .param => false
  | .cmd => false
  | .status => false
  | .rsvd => false

/-- Locations whose write collides with a command in flight (40_host_port.md R77). -/
def Region.writeGuarded : Region → Bool
  | .param => true
  | .cmd => true
  | .keyW _ => true
  | .binW _ => true
  | .boutW _ => true
  | .sWin _ => true
  | .cfg => false
  | .ctrl => false
  | .status => false
  | .rsvd => false

/-- The 32-bit location of a byte window whose first byte is at address `a`, through the byte lanes
(20_memory.md R49). -/
def windowRead (m : Memory) (a : Nat) (hbe : Bool) : BusWord :=
  dataOf (m.read a) (m.read (a + 1)) (m.read (a + 2)) (m.read (a + 3)) hbe

/-- A write of a byte window's location through the byte lanes (20_memory.md R49). -/
def windowWrite (m : Memory) (a : Nat) (d : BusWord) (hbe : Bool) : Memory :=
  m.writeBytes a (bytesOf d hbe)

/-- `SRead(q)`: the bytes of location q that belong to the entry, zero-extended (20_memory.md R50). -/
def sRead (w : WordWidth) (m : Memory) (q : Nat) : BusWord :=
  BitVec.ofNat 32 (m.readLE (sBase + 4 * q) (sliceBytes w))

/-- `SWrite(q, d)`: the bytes of location q that belong to the entry (20_memory.md R50). -/
def sWrite (w : WordWidth) (m : Memory) (q : Nat) (d : BusWord) : Memory :=
  m.writeBytes (sBase + 4 * q) (toLE (sliceBytes w) d.toNat)

/-- The byte addresses that hold a byte of KEY, BIN, BOUT or an entry of S. -/
def ramByte (w : WordWidth) (a : Nat) : Bool :=
  (decide (keyBase ≤ a) && decide (a < keyBase + 256)) ||
  (decide (binBase ≤ a) && decide (a < boutBase + 64)) ||
  (decide (sBase ≤ a) && decide ((a - sBase) / (4 * w.nsw) < smax)
    && decide ((a - sBase) % (4 * w.nsw) < w.bytes))

end Machine
end Sys2Proof
end

