-- ==== Sys2Proof/Machine/Flags.lean ====
section
/-! DEFINITION. The registers as 32-bit words (10_state.md R26 to R30), every update of STATUS the spec
gives (R30, 60_exceptions.md R123), and the interrupt output (60_exceptions.md R128). -/

namespace Sys2Proof.Machine

/-! ## Registers as bus words -/

/-- CFG: W in bits 7:0, LGW in bits 11:8 (10_state.md R26). -/
def cfgWord (w : WordWidth) : BusWord :=
  (BitVec.ofNat 4 w.lgw ++ BitVec.ofNat 8 w.bits).setWidth 32

/-- CTRL as read (10_state.md R27). -/
def Ctrl.word (c : Ctrl) : BusWord := (BitVec.ofBool c.hbe ++ BitVec.ofBool c.ie).setWidth 32

/-- CTRL as written; bits 31:2 are ignored (10_state.md R27). -/
def Ctrl.ofWord (d : BusWord) : Ctrl := { ie := d.getLsbD 0, hbe := d.getLsbD 1 }

/-- PARAM as read (10_state.md R28). -/
def Param.word (p : Param) : BusWord := p.pb ++ p.pr ++ p.pw

/-- PARAM as written (10_state.md R28). -/
def Param.ofWord (d : BusWord) : Param :=
  { pw := d.extractLsb' 0 8, pr := d.extractLsb' 8 12, pb := d.extractLsb' 20 12 }

/-- STATUS as read (10_state.md R30). -/
def Status.word (t : Status) : BusWord :=
  (BitVec.ofBool t.coll ++ BitVec.ofBool t.ill ++ BitVec.ofBool t.err ++ BitVec.ofBool t.done
    ++ BitVec.ofBool t.busy).setWidth 32

/-! ## Updates of STATUS -/

/-- A write to STATUS clears the bits of DONE, ERR, ILL and COLL written with 1 (10_state.md R30). -/
def Status.writeOneToClear (t : Status) (d : BusWord) : Status :=
  { busy := t.busy
    done := t.done && !d.getLsbD 1
    err := t.err && !d.getLsbD 2
    ill := t.ill && !d.getLsbD 3
    coll := t.coll && !d.getLsbD 4 }

/-- Acceptance of any command word clears DONE, ERR and ILL and keeps COLL (42_control.md R96). -/
def State.clearForAccept (s : State) : State :=
  { s with status := { s.status with done := false, err := false, ill := false } }

/-- A collision (60_exceptions.md R126). -/
def State.setColl (s : State) : State := { s with status := { s.status with coll := true } }

/-- Unsupported parameters (60_exceptions.md R124). -/
def State.setErr (s : State) : State := { s with status := { s.status with err := true } }

/-- The immediate completion of an illegal command word (42_control.md R98). -/
def State.setIllegal (s : State) : State :=
  { s with status := { s.status with ill := true, done := true } }

/-- The immediate completion of NOP (42_control.md R97). -/
def State.setDone (s : State) : State := { s with status := { s.status with done := true } }

/-- An engine command goes into flight: OPL takes it and BUSY is set (42_control.md R96). -/
def State.latch (s : State) (op : EngineOp) : State :=
  { s with
    opl := some op
    status := { s.status with busy := true }
    hidden := { s.hidden with phase := .inFlight } }

/-- The end of every completion: BUSY = 0 and DONE = 1 (42_control.md R99). -/
def State.complete (s : State) : State :=
  { s with
    status := { s.status with busy := false, done := true }
    hidden := { s.hidden with phase := .idle } }

/-- The interrupt output (60_exceptions.md R128). -/
def State.irq (s : State) : Bool := s.ctrl.ie && s.status.done

end Sys2Proof.Machine
end

