-- ==== Sys2Proof/Machine/Control.lean ====
section
/-! DEFINITION. Command control (42_control.md): acceptance of a command word, and NOP. The completion of
the other commands is in the files of their families. -/

namespace Sys2Proof.Machine

/-- The engine command an instruction is, if it is one: the rows that OPL can hold (10_state.md R37). -/
def engineOp : Instr → Option EngineOp
  | .nop => none
  | .setup5 => some .setup5
  | .setup6 => some .setup6
  | .enc5 => some .enc5
  | .dec5 => some .dec5
  | .enc6 => some .enc6
  | .dec6 => some .dec6
  | .rd _ _ => none
  | .wr _ _ => none

/-- The row that OPL stands for (42_control.md R99, `case OPL`). -/
def EngineOp.instr : EngineOp → Instr
  | .setup5 => .setup5
  | .setup6 => .setup6
  | .enc5 => .enc5
  | .dec5 => .dec5
  | .enc6 => .enc6
  | .dec6 => .dec6

/-- `Accept(d)` (42_control.md R96). Of the words `Decode` names, only NOP is no engine command. -/
def accept (d : BusWord) (s : State) : State :=
  match decodeCommand d with
  | .error _ => s.clearForAccept.setIllegal
  | .ok i =>
    match engineOp i with
    | none => s.clearForAccept.setDone
    | some op => s.clearForAccept.latch op

/-- NOP (42_control.md R97): the CMD write that carries it, in which it completes. While rst = 1 the
write is ignored (70_reset_and_hazards.md R141), and while BUSY = 1 it is dropped with COLL. -/
def execNop (s : State) : Host.Outcome State Fault Refusal :=
  if s.rst then .next s
  else if s.status.busy then .next s.setColl
  else .next s.clearForAccept.setDone

end Sys2Proof.Machine
end

