-- ==== Sys2Proof/Machine/HostPort.lean ====
section
/-! DEFINITION. The two host transactions RD and WR (40_host_port.md). -/

namespace Sys2Proof.Machine

/-- The value a read of a region returns when it does not collide (40_host_port.md R78). -/
def readRegion (s : State) : Region → BusWord
  | .cfg => cfgWord s.width
  | .ctrl => s.ctrl.word
  | .param => s.param.word
  | .cmd => 0
  | .status => s.status.word
  | .keyW n => windowRead s.mem (keyBase + 4 * n) s.ctrl.hbe
  | .binW n => windowRead s.mem (binBase + 4 * n) s.ctrl.hbe
  | .boutW n => windowRead s.mem (boutBase + 4 * n) s.ctrl.hbe
  | .sWin q => sRead s.width s.mem q
  | .rsvd => 0

/-- The effect of a write to a region when it does not collide (40_host_port.md R79). -/
def writeRegion (s : State) (d : BusWord) : Region → State
  | .cfg => s
  | .ctrl => { s with ctrl := Ctrl.ofWord d }
  | .param => { s with param := Param.ofWord d }
  | .cmd => accept d s
  | .status => { s with status := s.status.writeOneToClear d }
  | .keyW n => { s with mem := windowWrite s.mem (keyBase + 4 * n) d s.ctrl.hbe }
  | .binW n => { s with mem := windowWrite s.mem (binBase + 4 * n) d s.ctrl.hbe }
  | .boutW _ => s
  | .sWin q => { s with mem := sWrite s.width s.mem q d }
  | .rsvd => s

/-- `BusRead`: RDATA takes the value; a guarded location while BUSY = 1 gives 0 and sets COLL
(40_host_port.md R77, R78); while rst = 1 the read returns 0 (70_reset_and_hazards.md R141). -/
def busRead (q : BitVec 12) (s : State) : State :=
  if s.rst then { s with rdata := 0 }
  else if s.status.busy && (region s.width q).readGuarded then { s.setColl with rdata := 0 }
  else { s with rdata := readRegion s (region s.width q) }

/-- `BusWrite`: a guarded location while BUSY = 1 is dropped and sets COLL (40_host_port.md R77, R79);
while rst = 1 the write changes nothing (70_reset_and_hazards.md R141). -/
def busWrite (q : BitVec 12) (d : BusWord) (s : State) : State :=
  if s.rst then s
  else if s.status.busy && (region s.width q).writeGuarded then s.setColl
  else writeRegion s d (region s.width q)

/-- RD (40_host_port.md R78). -/
def execRd (q : BitVec 12) (s : State) : Host.Outcome State Fault Refusal := .next (busRead q s)

/-- WR (40_host_port.md R79). -/
def execWr (q : BitVec 12) (d : BusWord) (s : State) : Host.Outcome State Fault Refusal :=
  .next (busWrite q d s)

end Sys2Proof.Machine
end

