-- ==== Sys2Proof/Machine/Datapath.lean ====
section
/-! DEFINITION. The datapath primitives (41_datapath.md): rotations, the RC6 function f and the constants
P and Q. Addition, subtraction, XOR and multiplication are those of `BitVec` (R82 to R85). -/

namespace Sys2Proof.Machine

/-- `ROTL(x, n)`: the amount is n mod W (41_datapath.md R86, R87). -/
def rotl {n : Nat} (x : BitVec n) (k : Nat) : BitVec n := x.rotateLeft k

/-- `ROTR(x, n)`: the amount is n mod W (41_datapath.md R86, R88). -/
def rotr {n : Nat} (x : BitVec n) (k : Nat) : BitVec n := x.rotateRight k

/-- `f(x) = ROTL(x * (x + x + 1), LGW)` (41_datapath.md R89). -/
def quad {w : WordWidth} (x : Word w) : Word w := rotl (x * (x + x + 1)) w.lgw

/-- P_W (41_datapath.md R93; assumption log 14). -/
def magicP : (w : WordWidth) → Word w
  | .w8 => 0xB7#8
  | .w16 => 0xB7E1#16
  | .w32 => 0xB7E15163#32
  | .w64 => 0xB7E151628AED2A6B#64
  | .w128 => 0xB7E151628AED2A6ABF7158809CF4F3C7#128

/-- Q_W (41_datapath.md R93; assumption log 14). -/
def magicQ : (w : WordWidth) → Word w
  | .w8 => 0x9F#8
  | .w16 => 0x9E37#16
  | .w32 => 0x9E3779B9#32
  | .w64 => 0x9E3779B97F4A7C15#64
  | .w128 => 0x9E3779B97F4A7C15F39CC0605CEDC835#128

end Sys2Proof.Machine
end

