-- ==== Sys2Proof/Machine/KeySchedule.lean ====
section
/-! DEFINITION. The key schedule generator and the two setup commands (43_key_schedule.md). A command's
meaning is its completion step, 42_control.md R99 (assumption log 7). -/

namespace Sys2Proof.Machine

/-- The working storage of the mixing pass (10_state.md R35, R36). -/
structure Mix (w : WordWidth) where
  /-- the entries S[0..t-1] -/
  s : List (Word w)
  /-- the key words L[0..c-1] -/
  l : List (Word w)
  /-- accumulator A -/
  a : Word w
  /-- accumulator B -/
  b : Word w
  /-- cursor into S -/
  i : Nat
  /-- cursor into L -/
  j : Nat
deriving DecidableEq, Repr

/-- `n` entries `x, x + Q, x + 2Q, …` (43_key_schedule.md R108). -/
def initEntries (w : WordWidth) : Nat → Word w → List (Word w)
  | 0, _ => []
  | n + 1, x => x :: initEntries w n (x + magicQ w)

/-- One iteration of the mixing pass with table length t and key word count c (43_key_schedule.md R109). -/
def mixStep {w : WordWidth} (t c : Nat) (z : Mix w) : Mix w :=
  let a := rotl (z.s.getD z.i 0 + z.a + z.b) 3
  let b := rotl (z.l.getD z.j 0 + a + z.b) (a + z.b).toNat
  { s := z.s.set z.i a
    l := z.l.set z.j b
    a := a
    b := b
    i := (z.i + 1) % t
    j := (z.j + 1) % c }

/-- `n` iterations of the mixing pass. -/
def mixSteps {w : WordWidth} (t c : Nat) : Nat → Mix w → Mix w
  | 0, z => z
  | n + 1, z => mixSteps t c n (mixStep t c z)

/-- The key words `L[0..n-1]` from index `k` up (43_key_schedule.md R107). -/
def keyWords (w : WordWidth) (m : Memory) (b k : Nat) : Nat → List (Word w)
  | 0 => []
  | n + 1 => keyWord w m b k :: keyWords w m b (k + 1) n

/-- The table length t = 2r + x (43_key_schedule.md R104). -/
def tableLength (x : Nat) (p : Param) : Nat := 2 * p.r + x

/-- How many iterations the mixing pass runs: 3 · max(c, t) (43_key_schedule.md R109). -/
def mixCount (w : WordWidth) (x : Nat) (p : Param) : Nat :=
  3 * max (keyWordCount w p.b) (tableLength x p)

/-- The working storage when the mixing pass ends (43_key_schedule.md R104, R107 to R109): a function
of W, x, PARAM and the key bytes alone. -/
def expandKey (w : WordWidth) (m : Memory) (x : Nat) (p : Param) : Mix w :=
  mixSteps (tableLength x p) (keyWordCount w p.b) (mixCount w x p)
    { s := initEntries w (tableLength x p) (magicP w)
      l := keyWords w m p.b 0 (keyWordCount w p.b)
      a := 0
      b := 0
      i := 0
      j := 0 }

/-- What a successful setup leaves in the hidden registers and in L[0..c-1]. Never read again; log 5. -/
def Hidden.afterSetup {w : WordWidth} (h : Hidden) (z : Mix w) (iterations : Nat) : Hidden :=
  { h with
    a := z.a.setWidth 128
    b := z.b.setWidth 128
    i := z.i
    j := z.j
    count := iterations - 1
    l := z.l.map (fun x => x.setWidth 128) ++ h.l.drop z.l.length }

/-- `KeySchedule(x)`, x = 2 for SETUP5 and 4 for SETUP6 (43_key_schedule.md R104, R106 to R110). -/
def keySchedule (x : Nat) (s : State) : State :=
  if setupValid s.width s.param then
    { s with
      mem := writeTable s.mem 0 (expandKey s.width s.mem x s.param).s
      hidden := s.hidden.afterSetup (expandKey s.width s.mem x s.param) (mixCount s.width x s.param) }
  else s.setErr

/-- SETUP5 (43_key_schedule.md R104): the completion step with OPL = SETUP5. -/
def execSetup5 (s : State) : Host.Outcome State Fault Refusal := .next (keySchedule 2 s).complete

/-- SETUP6 (43_key_schedule.md R105): the completion step with OPL = SETUP6. -/
def execSetup6 (s : State) : Host.Outcome State Fault Refusal := .next (keySchedule 4 s).complete

end Sys2Proof.Machine
end

