-- ==== Sys2Proof/Machine/Rc5.lean ====
section
/-! DEFINITION. The RC5 block transform and its two commands (44_rc5.md). A command's meaning is its
completion step, 42_control.md R99 (assumption log 7). -/

namespace Sys2Proof.Machine

/-- The bytes of a block of `nw` words, NB = NW · WB (00_scope.md R13). -/
def blockBytes (nw : Nat) (w : WordWidth) : Nat := nw * w.bytes

/-- An out-of-contract crypt command: BOUT[0..NB-1] become free bytes and nothing else changes
(42_control.md R101). -/
def arbitraryBlock (nb : Nat) (s : State) : State :=
  { s with
    mem := s.mem.writeBytes boutBase (drawBytes s.draws boutBase nb)
    draws := s.draws + 1 }

/-- The two datapath words of RC5. -/
structure Pair (w : WordWidth) where
  a : Word w
  b : Word w
deriving DecidableEq, Repr

/-- Round k of encryption with key table `key` (44_rc5.md R113). -/
def rc5Round {w : WordWidth} (key : Nat → Word w) (k : Nat) (v : Pair w) : Pair w :=
  let a := rotl (v.a ^^^ v.b) v.b.toNat + key (2 * k + 2)
  let b := rotl (v.b ^^^ a) a.toNat + key (2 * k + 3)
  { a := a, b := b }

/-- Round k undone (44_rc5.md R114). -/
def rc5Unround {w : WordWidth} (key : Nat → Word w) (k : Nat) (v : Pair w) : Pair w :=
  let b := rotr (v.b - key (2 * k + 3)) v.a.toNat ^^^ v.a
  let a := rotr (v.a - key (2 * k + 2)) b.toNat ^^^ b
  { a := a, b := b }

/-- Rounds 0, 1, …, r-1. -/
def rc5Rounds {w : WordWidth} (key : Nat → Word w) : Nat → Pair w → Pair w
  | 0, v => v
  | r + 1, v => rc5Round key r (rc5Rounds key r v)

/-- Rounds r-1, …, 1, 0 undone. -/
def rc5Unrounds {w : WordWidth} (key : Nat → Word w) : Nat → Pair w → Pair w
  | 0, v => v
  | r + 1, v => rc5Unrounds key r (rc5Unround key r v)

/-- RC5 encryption of one block with r rounds (44_rc5.md R113). -/
def rc5Encrypt {w : WordWidth} (key : Nat → Word w) (r : Nat) (p : Pair w) : Pair w :=
  rc5Rounds key r { a := p.a + key 0, b := p.b + key 1 }

/-- RC5 decryption of one block with r rounds (44_rc5.md R114). -/
def rc5Decrypt {w : WordWidth} (key : Nat → Word w) (r : Nat) (p : Pair w) : Pair w :=
  let v := rc5Unrounds key r p
  { a := v.a - key 0, b := v.b - key 1 }

/-- The two words of the block in a buffer (41_datapath.md R90). -/
def readPair (w : WordWidth) (m : Memory) (base : Nat) : Pair w :=
  { a := packLE w m base, b := packLE w m (base + w.bytes) }

/-- The two words of a block put into a buffer (41_datapath.md R91). -/
def writePair {w : WordWidth} (m : Memory) (base : Nat) (v : Pair w) : Memory :=
  m.writeBytes base (wordBytes v.a ++ wordBytes v.b)

/-- What a crypt command leaves in the hidden registers. Never read again; log 5. -/
def Hidden.afterPair {w : WordWidth} (h : Hidden) (v : Pair w) (k : Nat) : Hidden :=
  { h with a := v.a.setWidth 128, b := v.b.setWidth 128, count := k }

/-- `Rc5Encrypt()` (44_rc5.md R113). -/
def runRc5Encrypt (s : State) : State :=
  if cryptInContract s.width s.param then
    let v := rc5Encrypt (sEntry s.width s.mem) s.param.r (readPair s.width s.mem binBase)
    { s with
      mem := writePair s.mem boutBase v
      hidden := s.hidden.afterPair v (s.param.r - 1) }
  else arbitraryBlock (blockBytes 2 s.width) s

/-- `Rc5Decrypt()` (44_rc5.md R114). -/
def runRc5Decrypt (s : State) : State :=
  if cryptInContract s.width s.param then
    let v := rc5Decrypt (sEntry s.width s.mem) s.param.r (readPair s.width s.mem binBase)
    { s with
      mem := writePair s.mem boutBase v
      hidden := s.hidden.afterPair v 0 }
  else arbitraryBlock (blockBytes 2 s.width) s

/-- ENC5 (44_rc5.md R113): the completion step with OPL = ENC5. -/
def execEnc5 (s : State) : Host.Outcome State Fault Refusal := .next (runRc5Encrypt s).complete

/-- DEC5 (44_rc5.md R114): the completion step with OPL = DEC5. -/
def execDec5 (s : State) : Host.Outcome State Fault Refusal := .next (runRc5Decrypt s).complete

end Sys2Proof.Machine
end

