-- ==== Sys2Proof/Machine/Rc6.lean ====
section
/-! DEFINITION. The RC6 block transform and its two commands (45_rc6.md). A command's meaning is its
completion step, 42_control.md R99 (assumption log 7). -/

namespace Sys2Proof.Machine

/-- The four datapath words of RC6. -/
structure Quad (w : WordWidth) where
  a : Word w
  b : Word w
  c : Word w
  d : Word w
deriving DecidableEq, Repr

/-- Round k of encryption with key table `key`, ending with the cyclic shift (45_rc6.md R118, R120). -/
def rc6Round {w : WordWidth} (key : Nat → Word w) (k : Nat) (v : Quad w) : Quad w :=
  let t := quad v.b
  let u := quad v.d
  let a := rotl (v.a ^^^ t) u.toNat + key (2 * k + 2)
  let c := rotl (v.c ^^^ u) t.toNat + key (2 * k + 3)
  { a := v.b, b := c, c := v.d, d := a }

/-- Round k undone, beginning with the shift undone: `(A, B, C, D) := (D, A, B, C)`
(45_rc6.md R119, R120). -/
def rc6Unround {w : WordWidth} (key : Nat → Word w) (k : Nat) (v : Quad w) : Quad w :=
  let b := v.a
  let d := v.c
  let u := quad d
  let t := quad b
  let c := rotr (v.b - key (2 * k + 3)) t.toNat ^^^ u
  let a := rotr (v.d - key (2 * k + 2)) u.toNat ^^^ t
  { a := a, b := b, c := c, d := d }

/-- Rounds 0, 1, …, r-1. -/
def rc6Rounds {w : WordWidth} (key : Nat → Word w) : Nat → Quad w → Quad w
  | 0, v => v
  | r + 1, v => rc6Round key r (rc6Rounds key r v)

/-- Rounds r-1, …, 1, 0 undone. -/
def rc6Unrounds {w : WordWidth} (key : Nat → Word w) : Nat → Quad w → Quad w
  | 0, v => v
  | r + 1, v => rc6Unrounds key r (rc6Unround key r v)

/-- RC6 encryption of one block with r rounds (45_rc6.md R118). -/
def rc6Encrypt {w : WordWidth} (key : Nat → Word w) (r : Nat) (p : Quad w) : Quad w :=
  let v := rc6Rounds key r { a := p.a, b := p.b + key 0, c := p.c, d := p.d + key 1 }
  { a := v.a + key (2 * r + 2), b := v.b, c := v.c + key (2 * r + 3), d := v.d }

/-- RC6 decryption of one block with r rounds (45_rc6.md R119). -/
def rc6Decrypt {w : WordWidth} (key : Nat → Word w) (r : Nat) (p : Quad w) : Quad w :=
  let v := rc6Unrounds key r
    { a := p.a - key (2 * r + 2), b := p.b, c := p.c - key (2 * r + 3), d := p.d }
  { a := v.a, b := v.b - key 0, c := v.c, d := v.d - key 1 }

/-- The four words of the block in a buffer (41_datapath.md R90). -/
def readQuad (w : WordWidth) (m : Memory) (base : Nat) : Quad w :=
  { a := packLE w m base
    b := packLE w m (base + w.bytes)
    c := packLE w m (base + 2 * w.bytes)
    d := packLE w m (base + 3 * w.bytes) }

/-- The four words of a block put into a buffer (41_datapath.md R91). -/
def writeQuad {w : WordWidth} (m : Memory) (base : Nat) (v : Quad w) : Memory :=
  m.writeBytes base (wordBytes v.a ++ (wordBytes v.b ++ (wordBytes v.c ++ wordBytes v.d)))

/-- What a crypt command leaves in the hidden registers. Never read again; log 5. -/
def Hidden.afterQuad {w : WordWidth} (h : Hidden) (v : Quad w) (k : Nat) : Hidden :=
  { h with
    a := v.a.setWidth 128
    b := v.b.setWidth 128
    c := v.c.setWidth 128
    d := v.d.setWidth 128
    count := k }

/-- `Rc6Encrypt()` (45_rc6.md R118). -/
def runRc6Encrypt (s : State) : State :=
  if cryptInContract s.width s.param then
    let v := rc6Encrypt (sEntry s.width s.mem) s.param.r (readQuad s.width s.mem binBase)
    { s with
      mem := writeQuad s.mem boutBase v
      hidden := s.hidden.afterQuad v (s.param.r - 1) }
  else arbitraryBlock (blockBytes 4 s.width) s

/-- `Rc6Decrypt()` (45_rc6.md R119). -/
def runRc6Decrypt (s : State) : State :=
  if cryptInContract s.width s.param then
    let v := rc6Decrypt (sEntry s.width s.mem) s.param.r (readQuad s.width s.mem binBase)
    { s with
      mem := writeQuad s.mem boutBase v
      hidden := s.hidden.afterQuad v 0 }
  else arbitraryBlock (blockBytes 4 s.width) s

/-- ENC6 (45_rc6.md R118): the completion step with OPL = ENC6. -/
def execEnc6 (s : State) : Host.Outcome State Fault Refusal := .next (runRc6Encrypt s).complete

/-- DEC6 (45_rc6.md R119): the completion step with OPL = DEC6. -/
def execDec6 (s : State) : Host.Outcome State Fault Refusal := .next (runRc6Decrypt s).complete

end Sys2Proof.Machine
end

