-- ==== Sys2Proof/Machine/Dispatch.lean ====
section
/-! DEFINITION. One arm per instruction. -/

namespace Sys2Proof.Machine

def exec (i : Instr) (s : State) : Host.Outcome State Fault Refusal :=
  match i with
  | .nop => Sys2Proof.Machine.execNop s
  | .setup5 => Sys2Proof.Machine.execSetup5 s
  | .setup6 => Sys2Proof.Machine.execSetup6 s
  | .enc5 => Sys2Proof.Machine.execEnc5 s
  | .dec5 => Sys2Proof.Machine.execDec5 s
  | .enc6 => Sys2Proof.Machine.execEnc6 s
  | .dec6 => Sys2Proof.Machine.execDec6 s
  | .rd q _ => Sys2Proof.Machine.execRd q s
  | .wr q d => Sys2Proof.Machine.execWr q d s

end Sys2Proof.Machine
end

