-- ==== Sys2Proof/Machine/Fetch.lean ====
section
/-! DEFINITION. How a word comes to be the next thing the machine runs. The block has no program counter
and fetches nothing (10_state.md R24): a transaction word is presented on the host port, and an engine
command is fetched from OPL while BUSY = 1 (42_control.md R99). Assumption log 10. -/

namespace Sys2Proof.Machine

/-- The transaction word that writes `d` to CMD, word index 3 (20_memory.md R44). -/
def cmdWriteWord (d : BusWord) : BitVec 45 := transactionWord 1 3 d

/-- The host presents `t` next, with the reset input low. -/
def present (t : BitVec 45) (s : State) : State :=
  { s with rst := false, inputs := .transaction t :: s.inputs }

/-- The engine command `op` has been accepted and it is the ENGINE's turn, with the reset input low. -/
def engineNext (op : EngineOp) (s : State) : State :=
  { s.clearForAccept.latch op with rst := false, inputs := .engine :: s.inputs }

/-- The instruction of `nbits` bits `w` is the next to run: a command word of the engine stands in OPL,
any other command word is on its way to CMD, a transaction word is on the port. -/
def loadWord (nbits w : Nat) (s : State) : State :=
  if nbits ≤ 32 then
    match decodeCommand (BitVec.ofNat 32 w) with
    | .error _ => present (cmdWriteWord (BitVec.ofNat 32 w)) s
    | .ok i =>
      match engineOp i with
      | none => present (cmdWriteWord (BitVec.ofNat 32 w)) s
      | some op => engineNext op s
  else present (BitVec.ofNat 45 w) s

end Sys2Proof.Machine
end

