-- ==== Sys2Proof/Machine/Reset.lean ====
section
/-! DEFINITION. The reset input (70_reset_and_hazards.md R141, R142). -/

namespace Sys2Proof.Machine

/-- The buffers and S after a reset that aborts the command in flight: the locations that command would
have written hold fresh draws, every other location keeps its value (70_reset_and_hazards.md R142). -/
def abortMemory (s : State) : Memory :=
  if s.status.busy then
    match s.opl with
    | some .setup5 =>
      if setupValid s.width s.param then drawTable s.width s.draws s.mem (2 * s.param.r + 2) else s.mem
    | some .setup6 =>
      if setupValid s.width s.param then drawTable s.width s.draws s.mem (2 * s.param.r + 4) else s.mem
    | some .enc5 => s.mem.writeBytes boutBase (drawBytes s.draws boutBase (blockBytes 2 s.width))
    | some .dec5 => s.mem.writeBytes boutBase (drawBytes s.draws boutBase (blockBytes 2 s.width))
    | some .enc6 => s.mem.writeBytes boutBase (drawBytes s.draws boutBase (blockBytes 4 s.width))
    | some .dec6 => s.mem.writeBytes boutBase (drawBytes s.draws boutBase (blockBytes 4 s.width))
    | none => s.mem
  else s.mem

/-- A clock edge with rst = 1: the registers take the values of 10_state.md R41. RDATA, the inputs to
come and W are no registers of R41 and stay (assumption log 6, log 9). -/
def applyReset (s : State) : State :=
  { s with
    ctrl := { ie := false, hbe := false }
    param := { pw := 0, pr := 0, pb := 0 }
    status := { busy := false, done := false, err := false, ill := false, coll := false }
    opl := none
    mem := abortMemory s
    hidden := Hidden.reset s.width
    rst := true
    draws := s.draws + 1 }

/-- A clock edge with rst = 0: from here transactions are accepted (70_reset_and_hazards.md R141). -/
def releaseReset (s : State) : State := { s with rst := false }

end Sys2Proof.Machine
end

