-- ==== Sys2Proof/Machine/Step.lean ====
section
/-! DEFINITION. One step of the machine: the next input, or the ENGINE when no input is left. -/

namespace Sys2Proof.Machine

/-- The ENGINE's turn: the completion step of the command in OPL, enabled exactly while STATUS.BUSY = 1
(42_control.md R99) and rst = 0 (70_reset_and_hazards.md R141). When it is not enabled, nothing
happens. BUSY = 1 with OPL = none is a state no run reaches (assumption log 8). -/
def engineTurn (s : State) : Host.Outcome State Fault Refusal :=
  if s.status.busy && !s.rst then
    match s.opl with
    | some op => exec op.instr s
    | none => .next s.complete
  else .next s

/-- What one input does (10_state.md R25, 20_memory.md R57). -/
def stepInput (x : Input) (s : State) : Host.Outcome State Fault Refusal :=
  match x with
  | .transaction t => exec (decodeTransaction t) s
  | .engine => engineTurn s
  | .rst true => .next (applyReset s)
  | .rst false => .next (releaseReset s)
  | .narrow _ _ _ _ => .refused .narrowAccess
  | .otherSignals => .refused .outsideTransactions

/-- One step. With no input left, a command in flight completes: "under weak fairness the completion
step then fires" (70_reset_and_hazards.md R157). -/
def step (s : State) : Host.Outcome State Fault Refusal :=
  match s.inputs with
  | [] => engineTurn s
  | x :: rest => stepInput x { s with inputs := rest }

/-- `s` with the instruction of `nbits` bits `w` as the next to run (assumption log 10). -/
def State.withFetchWord (s : State) (nbits w : Nat) : State := loadWord nbits w s

end Sys2Proof.Machine
end

