-- ==== Sys2Proof/Safety.lean ====
section
/-! DEFINITION. What claims are stated in: the invariant of the machine, which inputs belong to the host
interface, the end of a run and its observation (70_reset_and_hazards.md R157). -/

namespace Sys2Proof.Machine

/-- What every step keeps. -/
structure StateInv (s : State) : Prop where
  /-- memory is in its canonical form -/
  memWf : s.mem.wf
  /-- only bytes of KEY, BIN, BOUT and entries of S are ever stored (20_memory.md R44) -/
  memInRam : ∀ c ∈ s.mem, ramByte s.width c.1 = true
  /-- a command in flight is latched in OPL (10_state.md R37) -/
  busyOpl : s.status.busy = true → s.opl ≠ none
  /-- "a read of STATUS while a command is in flight returns BUSY = 1 and DONE = 0"
  (40_host_port.md R78), and ERR and ILL are clear as well (42_control.md R96) -/
  busyFlags : s.status.busy = true →
    s.status.done = false ∧ s.status.err = false ∧ s.status.ill = false
  /-- the sequencer is in flight exactly while BUSY = 1 (10_state.md R36) -/
  busyPhase : s.hidden.phase = .inFlight ↔ s.status.busy = true
  /-- while rst = 1 the registers hold their reset values (70_reset_and_hazards.md R141) -/
  rstRegs : s.rst = true →
    s.ctrl = { ie := false, hbe := false } ∧ s.param = { pw := 0, pr := 0, pb := 0 } ∧
    s.status = { busy := false, done := false, err := false, ill := false, coll := false } ∧
    s.opl = none
  /-- datapath registers hold words (41_datapath.md R81) -/
  hiddenWords : s.hidden.a.toNat < 2 ^ s.width.bits ∧ s.hidden.b.toNat < 2 ^ s.width.bits ∧
    s.hidden.c.toNat < 2 ^ s.width.bits ∧ s.hidden.d.toNat < 2 ^ s.width.bits
  /-- L has LMAX words (10_state.md R35) -/
  hiddenL : s.hidden.l.length = s.width.lmax ∧ ∀ x ∈ s.hidden.l, x.toNat < 2 ^ s.width.bits
  /-- cursors and counter stay in their ranges (10_state.md R36) -/
  hiddenCursors : s.hidden.i < smax ∧ s.hidden.j < s.width.lmax ∧ s.hidden.count < 3 * smax

/-- The inputs the interface has a meaning for (70_reset_and_hazards.md R158). -/
def Input.ordinary : Input → Bool
  | .transaction _ => true
  | .engine => true
  | .rst _ => true
  | .narrow _ _ _ _ => false
  | .otherSignals => false

/-- Whether an input is a read transaction, T[44] = 0 (30_encoding.md R70), whose step returns a value in
RDATA. -/
def Input.isRead : Input → Bool
  | .transaction t => !t.getLsbD 44
  | .engine => false
  | .rst _ => false
  | .narrow _ _ _ _ => false
  | .otherSignals => false

/-- A run has ended (70_reset_and_hazards.md R157): no transaction left and BUSY = 0. -/
def State.ended (s : State) : Bool := s.inputs.isEmpty && !s.status.busy

/-- The bytes of a buffer. -/
def bufferBytes (m : Memory) (base n : Nat) : List Byte := (List.range n).map fun i => m.read (base + i)

/-- What is observed at the end of a run, but for the values its reads returned
(70_reset_and_hazards.md R157). -/
structure Observation (w : WordWidth) where
  ctrl : BusWord
  param : BusWord
  status : BusWord
  irq : Bool
  key : List Byte
  bin : List Byte
  bout : List Byte
  s : List (Word w)
deriving DecidableEq, Repr

/-- The observation of a state (70_reset_and_hazards.md R157). -/
def State.observe (s : State) : Observation s.width where
  ctrl := s.ctrl.word
  param := s.param.word
  status := s.status.word
  irq := s.irq
  key := bufferBytes s.mem keyBase 256
  bin := bufferBytes s.mem binBase 64
  bout := bufferBytes s.mem boutBase 64
  s := (List.range smax).map (sEntry s.width s.mem)

/-- The values the host's reads return in the next `n` steps, in order (70_reset_and_hazards.md R157). -/
def readValues : Nat → State → List BusWord
  | 0, _ => []
  | n + 1, s =>
    match step s with
    | .next t =>
      match s.inputs with
      | [] => readValues n t
      | x :: _ =>
        if x.isRead then t.rdata :: readValues n t else readValues n t
    | .fault _ => []
    | .refused _ => []

end Sys2Proof.Machine
end

