-- ==== Sys2Proof/Certificates/Slice0/Obligations.lean ====
section
/-! DEFINITION. The statements for the provers. The first part writes the spec's formulas down once more,
in the spec's own form and without the model's functions; the second part states the obligations. -/

namespace Sys2Proof.Spec

open Sys2Proof.Machine

/-! ## The spec's formulas -/

/-- `Σ buf[i+m]·2^(8m)` for m = 0..WB-1 (41_datapath.md R90), with `a` the host address of byte i. -/
def wordAt (w : WordWidth) (ram : Nat → Byte) (a : Nat) : Word w :=
  BitVec.ofNat w.bits (∑ m ∈ Finset.range w.bytes, (ram (a + m)).toNat * 2 ^ (8 * m))

/-- `S[k]`: it starts at location q = NSW·k of the window at 0x2000 (20_memory.md R50). -/
def entry (w : WordWidth) (ram : Nat → Byte) (k : Nat) : Word w := wordAt w ram (0x2000 + 4 * (w.nsw * k))

/-- `KeyWord(k, b)` (41_datapath.md R92), KEY at 0x100 (20_memory.md R46). -/
def keyWord (w : WordWidth) (ram : Nat → Byte) (b k : Nat) : Word w :=
  BitVec.ofNat w.bits (∑ m ∈ Finset.range w.bytes,
    (if k * w.bytes + m < b then (ram (0x100 + (k * w.bytes + m))).toNat else 0) * 2 ^ (8 * m))

/-- `SetupValid()` (42_control.md R100). -/
def setupOk (s : State) : Prop :=
  s.param.pw.toNat = s.width.bits ∧ s.param.pr.toNat ≤ 255 ∧ s.param.pr.toNat % 4 = 0 ∧
    s.param.pb.toNat ≤ 255

/-- `CryptInContract()` (42_control.md R101). -/
def inContract (s : State) : Prop :=
  s.param.pw.toNat = s.width.bits ∧ s.param.pr.toNat ≤ 255 ∧ s.param.pr.toNat % 4 = 0

/-- The arrays and accumulators of the mixing pass (43_key_schedule.md R109). -/
structure Mixing (w : WordWidth) where
  s : Nat → Word w
  l : Nat → Word w
  a : Word w
  b : Word w

/-- Iteration n of the mixing pass, with i = n mod t and j = n mod c (43_key_schedule.md R109, R111). -/
def mixing {w : WordWidth} (t c : Nat) (z : Mixing w) (n : Nat) : Mixing w :=
  let a := (z.s (n % t) + z.a + z.b).rotateLeft 3
  let b := (z.l (n % c) + a + z.b).rotateLeft ((a + z.b).toNat % w.bits)
  { s := fun k => if k = n % t then a else z.s k
    l := fun k => if k = n % c then b else z.l k
    a := a
    b := b }

/-- The table `KeySchedule` leaves for table length t and key length b (43_key_schedule.md R104, R107 to
R109): `S[i] = P + i·Q` and `L[k] = KeyWord(k, b)` mixed 3·max(c, t) times. -/
def schedule (w : WordWidth) (ram : Nat → Byte) (t b : Nat) : Nat → Word w :=
  let c := max 1 ((b + w.bytes - 1) / w.bytes)
  ((List.range (3 * max c t)).foldl (mixing t c)
    { s := fun i => magicP w + BitVec.ofNat w.bits i * magicQ w
      l := fun k => keyWord w ram b k
      a := 0
      b := 0 }).s

/-- The loop of ENC5 (44_rc5.md R113). -/
def enc5 {w : WordWidth} (S : Nat → Word w) (r : Nat) (p0 p1 : Word w) : Word w × Word w :=
  (List.range r).foldl
    (fun v k =>
      let a := (v.1 ^^^ v.2).rotateLeft (v.2.toNat % w.bits) + S (2 * k + 2)
      let b := (v.2 ^^^ a).rotateLeft (a.toNat % w.bits) + S (2 * k + 3)
      (a, b))
    (p0 + S 0, p1 + S 1)

/-- The loop of DEC5 (44_rc5.md R114). -/
def dec5 {w : WordWidth} (S : Nat → Word w) (r : Nat) (c0 c1 : Word w) : Word w × Word w :=
  let v := (List.range r).reverse.foldl
    (fun v k =>
      let b := (v.2 - S (2 * k + 3)).rotateRight (v.1.toNat % w.bits) ^^^ v.1
      let a := (v.1 - S (2 * k + 2)).rotateRight (b.toNat % w.bits) ^^^ b
      (a, b))
    (c0, c1)
  (v.1 - S 0, v.2 - S 1)

/-- The RC6 function f (41_datapath.md R89). -/
def f {w : WordWidth} (x : Word w) : Word w := (x * (2 * x + 1)).rotateLeft w.lgw

/-- The loop of ENC6 (45_rc6.md R118). -/
def enc6 {w : WordWidth} (S : Nat → Word w) (r : Nat) (p0 p1 p2 p3 : Word w) :
    Word w × Word w × Word w × Word w :=
  match (List.range r).foldl
    (fun (v : Word w × Word w × Word w × Word w) k =>
      match v with
      | (a, b, c, d) =>
        let t := f b
        let u := f d
        let a' := (a ^^^ t).rotateLeft (u.toNat % w.bits) + S (2 * k + 2)
        let c' := (c ^^^ u).rotateLeft (t.toNat % w.bits) + S (2 * k + 3)
        (b, c', d, a'))
    (p0, p1 + S 0, p2, p3 + S 1) with
  | (a, b, c, d) => (a + S (2 * r + 2), b, c + S (2 * r + 3), d)

/-- The loop of DEC6 (45_rc6.md R119). -/
def dec6 {w : WordWidth} (S : Nat → Word w) (r : Nat) (c0 c1 c2 c3 : Word w) :
    Word w × Word w × Word w × Word w :=
  match (List.range r).reverse.foldl
    (fun (v : Word w × Word w × Word w × Word w) k =>
      match v with
      | (a', b', c', d') =>
        let a := d'
        let b := a'
        let c := b'
        let d := c'
        let u := f d
        let t := f b
        let c := (c - S (2 * k + 3)).rotateRight (t.toNat % w.bits) ^^^ u
        let a := (a - S (2 * k + 2)).rotateRight (u.toNat % w.bits) ^^^ t
        (a, b, c, d))
    (c0 - S (2 * r + 2), c1, c2 - S (2 * r + 3), c3) with
  | (a, b, c, d) => (a, b - S 0, c, d - S 1)

/-! ## Shapes of statements -/

/-- The host port is out of reset and no command is in flight. -/
def idle (s : State) : Prop := s.rst = false ∧ s.status.busy = false

/-- The host port is out of reset and a command is in flight. -/
def inFlight (s : State) : Prop := s.rst = false ∧ s.status.busy = true

/-- The registers no command ever writes, and what a completion does to STATUS beside ERR: BUSY = 0,
DONE = 1 (42_control.md R99). OPL and the model's own `inputs` stay as well. -/
def completed (s t : State) : Prop :=
  t.width = s.width ∧ t.ctrl = s.ctrl ∧ t.param = s.param ∧ t.opl = s.opl ∧ t.rst = s.rst ∧
  t.rdata = s.rdata ∧ t.inputs = s.inputs ∧ t.status.busy = false ∧ t.status.done = true ∧
  t.status.ill = s.status.ill ∧ t.status.coll = s.status.coll

/-- Every byte outside `[lo, hi)` reads as before. -/
def sameOutside (s t : State) (lo hi : Nat) : Prop :=
  ∀ a, a < lo ∨ hi ≤ a → t.mem.read a = s.mem.read a

/-- `UnpackLE(BOUT, off, x)` has happened: byte m of x stands at BOUT[off + m] (41_datapath.md R91). -/
def wordInBout {w : WordWidth} (t : State) (off : Nat) (x : Word w) : Prop :=
  ∀ m < w.bytes, t.mem.read (0x240 + off + m) = x.extractLsb' (8 * m) 8

/-- Word n of the block in BIN (41_datapath.md R90). -/
def binWord (s : State) (n : Nat) : Word s.width :=
  wordAt s.width s.mem.read (0x200 + n * s.width.bytes)

/-- The data bits of byte k of a location begin here (20_memory.md R49). -/
def lane (hbe : Bool) (k : Nat) : Nat := if hbe then 24 - 8 * k else 8 * k

/-- The byte address of the location with word index q (20_memory.md R42). -/
def addr (q : BitVec 12) : Nat := 4 * q.toNat

/-- A location of the KEY, BLK_IN or BLK_OUT window (20_memory.md R44). -/
def inByteWindow (q : BitVec 12) : Prop :=
  (0x100 ≤ addr q ∧ addr q ≤ 0x1FC) ∨ (0x200 ≤ addr q ∧ addr q ≤ 0x27C)

/-- A location of the S window that maps to an entry (20_memory.md R50). -/
def inSWindow (w : WordWidth) (q : BitVec 12) : Prop :=
  0x2000 ≤ addr q ∧ (addr q - 0x2000) / 4 / w.nsw < 508

/-- The locations a host address range of 20_memory.md R45 reserves. -/
def reserved (w : WordWidth) (q : BitVec 12) : Prop :=
  (0x14 ≤ addr q ∧ addr q ≤ 0xFF) ∨ (0x280 ≤ addr q ∧ addr q ≤ 0x1FFF) ∨
  (0x2000 ≤ addr q ∧ 508 ≤ (addr q - 0x2000) / 4 / w.nsw)

/-- The command words of 30_encoding.md R65. -/
def opWord : EngineOp → BusWord
  | .setup5 => 0x4
  | .setup6 => 0x6
  | .enc5 => 0x8
  | .dec5 => 0x9
  | .enc6 => 0xA
  | .dec6 => 0xB

/-- The bytes the command in flight would have written (70_reset_and_hazards.md R142). -/
def inWriteSet (s : State) (a : Nat) : Prop :=
  s.status.busy = true ∧
  match s.opl with
  | none => False
  | some .setup5 => setupOk s ∧ ∃ k < 2 * s.param.pr.toNat + 2, ∃ m < s.width.bytes,
      a = 0x2000 + 4 * (s.width.nsw * k) + m
  | some .setup6 => setupOk s ∧ ∃ k < 2 * s.param.pr.toNat + 4, ∃ m < s.width.bytes,
      a = 0x2000 + 4 * (s.width.nsw * k) + m
  | some .enc5 => 0x240 ≤ a ∧ a < 0x240 + 2 * s.width.bytes
  | some .dec5 => 0x240 ≤ a ∧ a < 0x240 + 2 * s.width.bytes
  | some .enc6 => 0x240 ≤ a ∧ a < 0x240 + 4 * s.width.bytes
  | some .dec6 => 0x240 ≤ a ∧ a < 0x240 + 4 * s.width.bytes

/-- The block words of a crypt command: 2 for RC5, 4 for RC6 (00_scope.md R13). -/
def cryptWords : EngineOp → Option Nat
  | .setup5 => none
  | .setup6 => none
  | .enc5 => some 2
  | .dec5 => some 2
  | .enc6 => some 4
  | .dec6 => some 4

/-- The table length is 2r plus this for a setup command (00_scope.md R11). -/
def setupExtra : EngineOp → Option Nat
  | .setup5 => some 2
  | .setup6 => some 4
  | .enc5 => none
  | .dec5 => none
  | .enc6 => none
  | .dec6 => none

/-- The ENGINE makes its completion step from `s` on: it is out of reset, a command is in flight, and
either no input is left or it is the ENGINE's turn. -/
def completing (s : State) : Prop :=
  inFlight s ∧ (s.inputs = [] ∨ s.inputs.head? = some .engine)

/-- The host writes `d` to the location q in this step. -/
def writing (s : State) (q : BitVec 12) (d : BusWord) : Prop :=
  ∃ t, s.inputs.head? = some (.transaction t) ∧ decodeTransaction t = .wr q d

/-- The host reads the location q in this step; `d` is the DATA field of the transaction word. -/
def reading (s : State) (q : BitVec 12) (d : BusWord) : Prop :=
  ∃ t, s.inputs.head? = some (.transaction t) ∧ decodeTransaction t = .rd q d

/-- The host writes the command word to CMD (word index 3), presents the transactions `ts`, and then the
ENGINE takes its turn. -/
def issue (op : EngineOp) (ts : List (BitVec 45)) : List Input :=
  .transaction (transactionWord 1 3 (opWord op)) :: (ts.map Input.transaction ++ [.engine])

end Sys2Proof.Spec

open Sys2Proof Sys2Proof.Machine Sys2Proof.Spec

/-! ## Encoding -/

/-- Decoding the word of an instruction gives it back, every operand at every value
(30_encoding.md sections 2 and 4). -/
def Obligations.DecodeOfEncode : Prop :=
  ∀ i : Instr, decodeWord (encode i).1 (encode i).2 = .ok i

/-- Each word has one meaning: a word that decodes is the word of what it decodes to. -/
def Obligations.EncodeOfDecode : Prop :=
  ∀ (n w : Nat) (i : Instr), decodeWord n w = .ok i → encode i = (n, w)

/-- 30_encoding.md R72: `Decode(d)`, total on every 32-bit value. -/
def Obligations.DecodeIsTheOpcodeMap : Prop :=
  ∀ d : BusWord,
    (∀ i, decodeCommand d = .ok i ↔
      (d, i) ∈ [(0x0#32, Instr.nop), (0x4#32, .setup5), (0x6#32, .setup6), (0x8#32, .enc5),
        (0x9#32, .dec5), (0xA#32, .enc6), (0xB#32, .dec6)]) ∧
    ((∀ i, decodeCommand d ≠ .ok i) ↔ ∃ e, decodeCommand d = .error e)

/-- Words written out from 30_encoding.md R65 and from program P1 of 95_test_vectors.md. -/
def Obligations.WrittenWordsDecode : Prop :=
  decodeTableWord 32 0x00000000 = some .nop ∧ decodeTableWord 32 0x00000006 = some .setup6 ∧
  decodeTableWord 32 0x00000009 = some .dec5 ∧ decodeTableWord 32 0x0000000A = some .enc6 ∧
  decodeTableWord 48 0x000400000000 = some (.rd 0x004 0) ∧
  decodeTableWord 48 0x100201001420 = some (.wr 0x002 0x01001420) ∧
  decodeTableWord 32 0x00000014 = none

/-! ## The step -/

/-- A step runs the transaction on the port: whatever word is presented, the step is `exec` of the
instruction it decodes to, in the state with that input taken. -/
def Obligations.StepRunsPresentedTransaction : Prop :=
  ∀ (s : State) (t : BitVec 45) (rest : List Input) (i : Instr),
    s.inputs = .transaction t :: rest → decodeWord 45 t.toNat = .ok i →
      step s = exec i { s with inputs := rest }

/-- 42_control.md R99, the enabling condition: the ENGINE's step is enabled exactly while BUSY = 1 (and
rst = 0, 70_reset_and_hazards.md R141), and it runs the command in OPL. When it is not enabled its turn
changes nothing. -/
def Obligations.EngineStepRunsTheLatchedCommand : Prop :=
  ∀ (s : State) (op : EngineOp) (rest : List Input),
    (inFlight s → s.opl = some op →
      (s.inputs = [] → step s = exec op.instr s) ∧
      (s.inputs = .engine :: rest → step s = exec op.instr { s with inputs := rest })) ∧
    (s.rst = true ∨ s.status.busy = false →
      (s.inputs = [] → step s = .next s) ∧
      (s.inputs = .engine :: rest → step s = .next { s with inputs := rest }))

/-- The very next step after `withFetchWord` runs the instruction whose word was placed (the model's
own interface, assumption log 10). -/
def Obligations.FetchedWordRunsNext : Prop :=
  ∀ (s : State) (i : Instr),
    step (s.withFetchWord (encode i).1 (encode i).2) =
      match engineOp i with
      | some op => exec i { s.clearForAccept.latch op with rst := false }
      | none => exec i { s with rst := false }

/-- Every input of the host interface is answered with a next state; the machine never faults, and it
refuses only a narrow access and signals outside the transaction abstraction (20_memory.md R54,
60_exceptions.md R123, 93_implementation_defined.md U12). -/
def Obligations.EveryOrdinaryStepAnswers : Prop :=
  ∀ s : State,
    ((∀ x, s.inputs.head? = some x → x.ordinary = true) → ∃ t, step s = .next t) ∧
    (∀ z a w d, s.inputs.head? = some (.narrow z a w d) → step s = .refused .narrowAccess) ∧
    (s.inputs.head? = some .otherSignals → step s = .refused .outsideTransactions)

/-! ## Command control -/

/-- 42_control.md R96 for the six engine commands: acceptance by a CMD write while idle. The sequencer
phase is a hidden register whose values are the model's choice (assumption log 5). -/
def Obligations.AcceptanceStartsTheCommand : Prop :=
  ∀ (s : State) (op : EngineOp), idle s →
    exec (.wr 3 (opWord op)) s = .next { s with
      opl := some op
      status := { busy := true, done := false, err := false, ill := false, coll := s.status.coll }
      hidden := { s.hidden with phase := .inFlight } }

/-- 42_control.md R97. That the row NOP is run by the CMD write that carries it is the model's reading
(assumption log 7): "in the same transaction as the CMD write". -/
def Obligations.NopCompletesAtAcceptance : Prop :=
  ∀ s : State,
    exec (.wr 3 0) s = exec .nop s ∧
    (idle s → exec .nop s = .next { s with
      status := { busy := false, done := true, err := false, ill := false, coll := s.status.coll } }) ∧
    (idle s → s.ctrl.ie = true → ∀ t, exec .nop s = .next t → t.irq = true) ∧
    (inFlight s → exec .nop s = .next { s with status := { s.status with coll := true } }) ∧
    (idle s → s.status.word = 0x4 → ∀ t, exec (.wr 3 0) s = .next t → t.status.word = 0x2)

/-- 30_encoding.md R66 and 42_control.md R98. -/
def Obligations.IllegalCommandWord : Prop :=
  ∀ d : BusWord,
    ((∃ e, decodeCommand d = .error e) ↔
      (d.extractLsb' 4 28 ≠ 0 ∨ d.extractLsb' 0 4 ∈
        [0b0001#4, 0b0010#4, 0b0011#4, 0b0101#4, 0b0111#4, 0b1100#4, 0b1101#4, 0b1110#4, 0b1111#4])) ∧
    (∀ s e, idle s → decodeCommand d = .error e →
      exec (.wr 3 d) s = .next { s with
        status := { busy := false, done := true, err := false, ill := true, coll := s.status.coll } }) ∧
    (∀ s t, idle s → s.status.word = 0 → exec (.wr 3 0x3) s = .next t → t.status.word = 0xA)

/-! ## Registers on the host port -/

/-- Reads of CTRL, PARAM, CMD and STATUS give their fields, in flight or not, and change RDATA only
(40_host_port.md R78; 10_state.md R27 to R30). -/
def Obligations.ReadsOfRegisters : Prop :=
  ∀ (s : State) (d : BusWord), s.rst = false →
    exec (.rd 1 d) s = .next { s with
      rdata := BitVec.ofNat 32 (s.ctrl.ie.toNat + 2 * s.ctrl.hbe.toNat) } ∧
    exec (.rd 2 d) s = .next { s with
      rdata := BitVec.ofNat 32
        (s.param.pw.toNat + 2 ^ 8 * s.param.pr.toNat + 2 ^ 20 * s.param.pb.toNat) } ∧
    exec (.rd 3 d) s = .next { s with rdata := 0 } ∧
    exec (.rd 4 d) s = .next { s with
      rdata := BitVec.ofNat 32 (s.status.busy.toNat + 2 * s.status.done.toNat +
        4 * s.status.err.toNat + 8 * s.status.ill.toNat + 16 * s.status.coll.toNat) }

/-- Writes of CTRL and STATUS, in flight or not, and of PARAM while idle (40_host_port.md R79;
10_state.md R27, R28, R30). -/
def Obligations.WritesOfRegisters : Prop :=
  ∀ (s : State) (d : BusWord), s.rst = false →
    exec (.wr 1 d) s = .next { s with ctrl := { ie := d.getLsbD 0, hbe := d.getLsbD 1 } } ∧
    exec (.wr 4 d) s = .next { s with status :=
      { busy := s.status.busy
        done := s.status.done && !d.getLsbD 1
        err := s.status.err && !d.getLsbD 2
        ill := s.status.ill && !d.getLsbD 3
        coll := s.status.coll && !d.getLsbD 4 } } ∧
    (s.status.busy = false → ∃ p : Param,
      exec (.wr 2 d) s = .next { s with param := p } ∧
      d.toNat = p.pw.toNat + 2 ^ 8 * p.pr.toNat + 2 ^ 20 * p.pb.toNat)

/-- 10_state.md R26. -/
def Obligations.CfgReportsTheWidth : Prop :=
  (∀ s d, s.rst = false → exec (.rd 0 d) s = .next { s with rdata :=
    match s.width with
    | .w8 => 0x308
    | .w16 => 0x410
    | .w32 => 0x520
    | .w64 => 0x640
    | .w128 => 0x780 }) ∧
  (∀ s d, exec (.wr 0 d) s = .next s) ∧
  (∀ s t, step s = .next t → t.width = s.width)

/-! ## Windows -/

/-- 20_memory.md R45. -/
def Obligations.ReservedLocationsDoNothing : Prop :=
  ∀ (s : State) (q : BitVec 12) (d : BusWord), s.rst = false → reserved s.width q →
    exec (.rd q d) s = .next { s with rdata := 0 } ∧ exec (.wr q d) s = .next s

/-- 20_memory.md R46 to R49: KEY, BLK_IN and BLK_OUT, read and written through the byte lanes. -/
def Obligations.ByteWindowLanes : Prop :=
  (∀ s q d, idle s → inByteWindow q → ∃ v : BusWord,
    exec (.rd q d) s = .next { s with rdata := v } ∧
    ∀ k < 4, v.extractLsb' (lane s.ctrl.hbe k) 8 = s.mem.read (addr q + k)) ∧
  (∀ s q d, idle s → inByteWindow q → addr q < 0x240 → ∃ m : Memory,
    exec (.wr q d) s = .next { s with mem := m } ∧
    (∀ k < 4, m.read (addr q + k) = d.extractLsb' (lane s.ctrl.hbe k) 8) ∧
    ∀ a, a < addr q ∨ addr q + 4 ≤ a → m.read a = s.mem.read a) ∧
  (∀ s q d, idle s → inByteWindow q → 0x240 ≤ addr q → exec (.wr q d) s = .next s) ∧
  (∀ s d t, exec (.wr 1 d) s = .next t → t.mem = s.mem)

/-- 20_memory.md R50. -/
def Obligations.SWindowIsTheTable : Prop :=
  ∀ (s : State) (q : BitVec 12) (d : BusWord), idle s → 0x2000 ≤ addr q →
    let k := (addr q - 0x2000) / 4 / s.width.nsw
    let m := (addr q - 0x2000) / 4 % s.width.nsw
    (k < 508 →
      (∃ v : BusWord, exec (.rd q d) s = .next { s with rdata := v } ∧
        ∀ i < 32, v.getLsbD i = (entry s.width s.mem.read k).getLsbD (32 * m + i)) ∧
      (∃ n : Memory, exec (.wr q d) s = .next { s with mem := n } ∧
        (∀ i < s.width.bits, (entry s.width n.read k).getLsbD i =
          if 32 * m ≤ i ∧ i < 32 * m + 32 then d.getLsbD (i - 32 * m)
          else (entry s.width s.mem.read k).getLsbD i) ∧
        ∀ a, a < addr q ∨ addr q + 4 ≤ a → n.read a = s.mem.read a)) ∧
    (508 ≤ k → exec (.rd q d) s = .next { s with rdata := 0 } ∧ exec (.wr q d) s = .next s)

/-- 60_exceptions.md R138, several tables on one instance: a location of S read at one time and written
back later is restored exactly, whatever happened in between. -/
def Obligations.SavedTableWordIsRestored : Prop :=
  ∀ (s u t : State) (q : BitVec 12) (d : BusWord),
    idle s → idle u → u.width = s.width → inSWindow s.width q → exec (.rd q d) s = .next t →
    ∃ v, exec (.wr q t.rdata) u = .next v ∧
      ∀ k < 508, ∀ m < s.width.nsw, 0x2000 + 4 * (s.width.nsw * k + m) = addr q →
        ∀ i, 32 * m ≤ i → i < 32 * m + 32 →
          (entry v.width v.mem.read k).getLsbD i = (entry s.width s.mem.read k).getLsbD i

/-- 70_reset_and_hazards.md R150: the same location read under the two lane settings gives the two
byte-reversed words, and the bytes stored do not change. -/
def Obligations.LaneSettingReversesBytes : Prop :=
  ∀ (s t u : State) (q : BitVec 12) (d : BusWord), idle s → inByteWindow q →
    exec (.rd q d) { s with ctrl := { s.ctrl with hbe := false } } = .next t →
    exec (.rd q d) { s with ctrl := { s.ctrl with hbe := true } } = .next u →
    (∀ k < 4, t.rdata.extractLsb' (8 * k) 8 = u.rdata.extractLsb' (24 - 8 * k) 8) ∧
    t.mem = s.mem ∧ u.mem = s.mem

/-- 60_exceptions.md R126: the access that collides has no other effect, and COLL is sticky. -/
def Obligations.CollisionIsStickyAndHarmless : Prop :=
  (∀ s q d, inFlight s → inByteWindow q ∨ inSWindow s.width q →
    exec (.rd q d) s = .next { s with rdata := 0, status := { s.status with coll := true } }) ∧
  (∀ s q d, inFlight s → q = 2 ∨ q = 3 ∨ inByteWindow q ∨ inSWindow s.width q →
    exec (.wr q d) s = .next { s with status := { s.status with coll := true } }) ∧
  (∀ s t, step s = .next t → s.status.coll = true → t.status.coll = false →
    (∃ d, writing s 4 d ∧ d.getLsbD 4 = true) ∨ s.inputs.head? = some (.rst true)) ∧
  (∀ s t, step s = .next t → s.status.coll = false → t.status.coll = true → inFlight s ∧
    ((∃ q d, reading s q d ∧ (inByteWindow q ∨ inSWindow s.width q)) ∨
     (∃ q d, writing s q d ∧ (q = 2 ∨ q = 3 ∨ inByteWindow q ∨ inSWindow s.width q)))) ∧
  (∀ s d t, s.rst = false → d.getLsbD 4 = true → exec (.wr 4 d) s = .next t → t.status.coll = false) ∧
  (∀ s t, s.inputs.head? = some (.rst true) → step s = .next t → t.status.coll = false)

/-- 20_memory.md R56: with no command in flight a read has no side effect and is idempotent. -/
def Obligations.IdleReadsAreIdempotent : Prop :=
  ∀ (s : State) (q : BitVec 12) (d : BusWord), idle s → ∃ t,
    exec (.rd q d) s = .next t ∧ t = { s with rdata := t.rdata } ∧ exec (.rd q d) t = .next t

/-! ## Interrupt -/

/-- 60_exceptions.md R128: irq is IE AND DONE; it falls at the acceptance of an engine command, rises at
every completion exactly when IE = 1, follows writes of CTRL and STATUS, and is low in reset. -/
def Obligations.InterruptFollowsCompletion : Prop :=
  (∀ s : State, s.irq = (s.ctrl.ie && s.status.done)) ∧
  (∀ s op t, exec (EngineOp.instr op) s = .next t → t.irq = s.ctrl.ie) ∧
  (∀ s op t, idle s → exec (.wr 3 (opWord op)) s = .next t → t.irq = false) ∧
  (∀ s d e t, idle s → decodeCommand d = .error e → exec (.wr 3 d) s = .next t → t.irq = s.ctrl.ie) ∧
  (∀ s t, s.inputs.head? = some (.rst true) → step s = .next t → t.irq = false) ∧
  (∀ s t, idle s → exec .nop s = .next t → t.irq = s.ctrl.ie) ∧
  (∀ s d t, s.rst = false → exec (.wr 1 d) s = .next t → t.irq = (d.getLsbD 0 && s.status.done)) ∧
  (∀ s d t, s.rst = false → exec (.wr 4 d) s = .next t → t.irq = (s.irq && !d.getLsbD 1)) ∧
  (∀ s q d t, q ≠ 1 → q ≠ 3 → q ≠ 4 → exec (.wr q d) s = .next t → t.irq = s.irq) ∧
  (∀ s q d t, exec (.rd q d) s = .next t → t.irq = s.irq)

/-! ## Reset -/

/-- 10_state.md R41 and 70_reset_and_hazards.md R143, R144 for every width: registers 0, no command in
flight, irq low, every byte at its power-on draw (the draws' form is assumption log 3); a SETUP issued at
once fails. `State.reset` is the instance W = 32 (the model's choice, assumption log 1), and that a step
with no input left is the ENGINE's is the model's choice (assumption log 2). -/
def Obligations.ResetValues : Prop :=
  State.reset = State.afterReset .w32 ∧
  ∀ w : WordWidth,
    (State.afterReset w).width = w ∧ (State.afterReset w).ctrl.word = 0 ∧
    (State.afterReset w).param.word = 0 ∧ (State.afterReset w).status.word = 0 ∧
    (State.afterReset w).opl = none ∧ (State.afterReset w).rst = false ∧
    (State.afterReset w).irq = false ∧
    (∀ a, (State.afterReset w).mem.read a = Config.initRam a) ∧
    (∀ op, setupExtra op ≠ none → ∃ t u, exec (.wr 3 (opWord op)) (State.afterReset w) = .next t ∧
      step t = .next u ∧ u.status.word = 0x6 ∧ u.mem = [])

/-- 70_reset_and_hazards.md R142. -/
def Obligations.ResetAbortsTheCommandInFlight : Prop :=
  ∀ (s : State) (rest : List Input), s.inputs = .rst true :: rest → ∃ t, step s = .next t ∧
    t.status = { busy := false, done := false, err := false, ill := false, coll := false } ∧
    t.ctrl = { ie := false, hbe := false } ∧ t.param = { pw := 0, pr := 0, pb := 0 } ∧ t.opl = none ∧
    t.rst = true ∧ t.width = s.width ∧ t.inputs = rest ∧
    (∀ a, inWriteSet s a → t.mem.read a = Config.freeByte s.draws a) ∧
    (∀ a, ¬ inWriteSet s a → t.mem.read a = s.mem.read a) ∧
    (s.draws < t.draws)

/-- 70_reset_and_hazards.md R141: a clock edge with rst = 1 gives the registers their reset values; while
rst = 1 a write changes nothing, a read returns 0 and no completion fires; a clock edge with rst = 0 ends
it; and no instruction asserts or ends a reset. How the level is sampled is the model's reading
(assumption log 9), and the list of inputs, empty or not, is the model's choice (assumption log 2). -/
def Obligations.ResetHoldsTheBlock : Prop :=
  (∀ (s : State) (rest : List Input), s.inputs = .rst true :: rest → ∃ t, step s = .next t ∧
    t.rst = true ∧ t.ctrl.word = 0 ∧ t.param.word = 0 ∧ t.status.word = 0 ∧ t.opl = none ∧
    t.irq = false) ∧
  (∀ (s : State) (q : BitVec 12) (d : BusWord) (rest : List Input), s.rst = true →
    exec (.wr q d) s = .next s ∧ exec (.rd q d) s = .next { s with rdata := 0 } ∧
    exec .nop s = .next s ∧
    (s.inputs = [] → step s = .next s) ∧
    (s.inputs = .engine :: rest → step s = .next { s with inputs := rest }) ∧
    (s.inputs = .rst false :: rest → step s = .next { s with inputs := rest, rst := false })) ∧
  (∀ (i : Instr) (s t : State), exec i s = .next t → t.rst = s.rst)

/-! ## Datapath -/

/-- 41_datapath.md R87 and R88: the rotations bit by bit, ROTL in closed form, and each the inverse of
the other. -/
def Obligations.RotationsAreModuloW : Prop :=
  ∀ (w : WordWidth) (x : Word w) (n : Nat),
    (∀ i < w.bits, (rotl x n).getLsbD i = x.getLsbD ((i + w.bits - n % w.bits) % w.bits)) ∧
    (∀ i < w.bits, (rotr x n).getLsbD i = x.getLsbD ((i + n % w.bits) % w.bits)) ∧
    (n % w.bits = 0 → rotl x n = x) ∧
    (n % w.bits ≠ 0 → (rotl x n).toNat =
      (x.toNat * 2 ^ (n % w.bits)) % 2 ^ w.bits + x.toNat / 2 ^ (w.bits - n % w.bits)) ∧
    rotr (rotl x n) n = x ∧ rotl (rotr x n) n = x

/-- 41_datapath.md R89: f is the exact product x·(2x+1) reduced modulo 2^W and rotated by log2 W. -/
def Obligations.QuadraticFunction : Prop :=
  (∀ (w : WordWidth) (x : Word w), 2 ^ w.lgw = w.bits ∧
    (quad x).toNat =
      ((x.toNat * (2 * x.toNat + 1)) % 2 ^ w.bits * 2 ^ w.lgw) % 2 ^ w.bits +
        (x.toNat * (2 * x.toNat + 1)) % 2 ^ w.bits / 2 ^ (w.bits - w.lgw)) ∧
  (quad (w := .w32) 1).toNat = 0x60 ∧ (quad (w := .w8) 0xFF).toNat = 0x08

/-- 41_datapath.md R90 and R91: packing is the little-endian sum, unpacking stores the bytes of the word
and nothing else, and packing undoes unpacking. -/
def Obligations.PackingAndUnpacking : Prop :=
  ∀ (w : WordWidth) (m : Memory) (a : Nat) (x : Word w),
    packLE w m a = wordAt w m.read a ∧
    (∀ i < w.bytes, (unpackLE m a x).read (a + i) = x.extractLsb' (8 * i) 8) ∧
    (∀ b, b < a ∨ a + w.bytes ≤ b → (unpackLE m a x).read b = m.read b) ∧
    packLE w (unpackLE m a x) a = x

/-- 41_datapath.md R92: key words, and that key bytes at index b or above are never read. -/
def Obligations.KeyWordPacking : Prop :=
  ∀ (w : WordWidth) (m m' : Memory) (b k : Nat),
    Machine.keyWord w m b k = Spec.keyWord w m.read b k ∧
    (∀ i < w.bytes, (Machine.keyWord w m b k).extractLsb' (8 * i) 8 =
      if k * w.bytes + i < b then m.read (0x100 + (k * w.bytes + i)) else 0) ∧
    (b = 0 → keyWordCount w b = 1 ∧ Machine.keyWord w m b 0 = 0) ∧
    ((∀ i < b, m.read (0x100 + i) = m'.read (0x100 + i)) →
      Machine.keyWord w m b k = Machine.keyWord w m' b k)

/-! ## Key schedule -/

/-- 43_key_schedule.md R108: the table before mixing, in closed form, and that it owes nothing to the
table's earlier content. -/
def Obligations.TableInitialisation : Prop :=
  (∀ (w : WordWidth) (t i : Nat), i < t →
    (initEntries w t (magicP w)).length = t ∧
    (initEntries w t (magicP w)).getD i 0 = magicP w + BitVec.ofNat w.bits i * magicQ w ∧
    (i + 1 < t → (initEntries w t (magicP w)).getD (i + 1) 0 =
      (initEntries w t (magicP w)).getD i 0 + magicQ w)) ∧
  (∀ (w : WordWidth) (m m' : Memory) (x : Nat) (p : Param),
    (∀ a, a < 0x2000 → m.read a = m'.read a) → p.b ≤ 255 → expandKey w m x p = expandKey w m' x p)

/-- 43_key_schedule.md R109: what one iteration does, in order, and how many run. -/
def Obligations.MixingIterations : Prop :=
  (∀ (w : WordWidth) (t c n : Nat) (z : Mix w),
    let y := mixSteps t c n z
    let y' := mixSteps t c (n + 1) z
    y'.a = rotl (y.s.getD y.i 0 + y.a + y.b) 3 ∧ y'.s = y.s.set y.i y'.a ∧
    y'.b = rotl (y.l.getD y.j 0 + y'.a + y.b) ((y'.a + y.b).toNat % w.bits) ∧
    y'.l = y.l.set y.j y'.b ∧
    y'.i = (y.i + 1) % t ∧ y'.j = (y.j + 1) % c) ∧
  (∀ (w : WordWidth) (m : Memory) (x : Nat) (p : Param), ∃ z : Mix w,
    z.a = 0 ∧ z.b = 0 ∧ z.i = 0 ∧ z.j = 0 ∧
    expandKey w m x p = mixSteps (2 * p.r + x) (keyWordCount w p.b)
      (3 * max (keyWordCount w p.b) (2 * p.r + x)) z) ∧
  (∀ (w : WordWidth) (p : Param), setupValid w p = true →
    6 ≤ mixCount w 2 p ∧ mixCount w 2 p ≤ mixCount w 4 p ∧ mixCount w 4 p ≤ 1524)

/-- 00_scope.md R11 and R12: every legal table fits the key-table RAM and every key the key-word RAM. -/
def Obligations.TablesFitTheRams : Prop :=
  ∀ (w : WordWidth) (p : Param), setupValid w p = true →
    2 ≤ tableLength 2 p ∧ tableLength 2 p ≤ 506 ∧ tableLength 4 p ≤ 508 ∧
    1 ≤ keyWordCount w p.b ∧ keyWordCount w p.b ≤ w.lmax ∧
    keyWordCount w 255 = w.lmax ∧ p.b ≤ keyWordCount w p.b * w.bytes

/-- 42_control.md R100 and 43_key_schedule.md R106: a setup fails exactly when SetupValid() is false, and
then ERR is set and nothing is written. The sequencer phase is a hidden register whose values are the
model's choice (assumption log 5). -/
def Obligations.SetupFailsExactlyWhenInvalid : Prop :=
  ∀ (s : State) (op : EngineOp), setupExtra op ≠ none →
    (¬ setupOk s → exec op.instr s = .next { s with
      status := { busy := false, done := true, err := true, ill := s.status.ill, coll := s.status.coll }
      hidden := { s.hidden with phase := .idle } }) ∧
    (setupOk s → ∃ t, exec op.instr s = .next t ∧ t.status =
      { busy := false, done := true, err := s.status.err, ill := s.status.ill, coll := s.status.coll })

/-- 43_key_schedule.md R104, R105, R107 to R109, R111: after SETUP5 or SETUP6 the entries S[0..t-1] are
those of the spec's own loops over S, L, A and B. -/
def Obligations.SetupComputesTheSchedule : Prop :=
  ∀ (s : State) (op : EngineOp) (x : Nat), setupExtra op = some x → setupOk s →
    ∃ t, exec op.instr s = .next t ∧ ∀ k < 2 * s.param.pr.toNat + x,
      entry s.width t.mem.read k =
        schedule s.width s.mem.read (2 * s.param.pr.toNat + x) s.param.pb.toNat k

/-- 43_key_schedule.md R110: the write set of a successful setup. -/
def Obligations.SetupWriteSet : Prop :=
  ∀ (s : State) (op : EngineOp) (x : Nat), setupExtra op = some x → setupOk s →
    ∃ t, exec op.instr s = .next t ∧ completed s t ∧ t.status.err = s.status.err ∧
      t.draws = s.draws ∧
      (∀ k < 2 * s.param.pr.toNat + x, entry s.width t.mem.read k =
        (expandKey s.width s.mem x s.param).s.getD k 0) ∧
      (∀ a, a < 0x2000 ∨ 0x2000 + 4 * (s.width.nsw * (2 * s.param.pr.toNat + x)) ≤ a →
        t.mem.read a = s.mem.read a) ∧
      (∀ a, (∀ k < 2 * s.param.pr.toNat + x, a < 0x2000 + 4 * (s.width.nsw * k) ∨
        0x2000 + 4 * (s.width.nsw * k) + s.width.bytes ≤ a) → t.mem.read a = s.mem.read a)

/-- 43_key_schedule.md R112: the table is a function of W, x, r, b and KEY[0..b-1] alone. -/
def Obligations.SetupIsDeterministic : Prop :=
  ∀ (s u : State) (op : EngineOp) (x : Nat), setupExtra op = some x → setupOk s →
    u.width = s.width → u.param = s.param →
    (∀ i < s.param.pb.toNat, u.mem.read (0x100 + i) = s.mem.read (0x100 + i)) →
    ∃ t v, exec op.instr s = .next t ∧ exec op.instr u = .next v ∧
      ∀ k < 2 * s.param.pr.toNat + x, entry s.width v.mem.read k = entry s.width t.mem.read k

/-! ## RC5 -/

/-- 44_rc5.md R113: ENC5 in contract, with its frame. -/
def Obligations.Enc5EncryptsTheBlock : Prop :=
  ∀ s : State, inContract s → ∃ t, exec .enc5 s = .next t ∧ completed s t ∧
    t.status.err = s.status.err ∧ t.draws = s.draws ∧
    (let c := enc5 (entry s.width s.mem.read) s.param.pr.toNat (binWord s 0) (binWord s 1)
     wordInBout t 0 c.1 ∧ wordInBout t s.width.bytes c.2) ∧
    sameOutside s t 0x240 (0x240 + 2 * s.width.bytes)

/-- 44_rc5.md R114: DEC5 in contract, with its frame. -/
def Obligations.Dec5DecryptsTheBlock : Prop :=
  ∀ s : State, inContract s → ∃ t, exec .dec5 s = .next t ∧ completed s t ∧
    t.status.err = s.status.err ∧ t.draws = s.draws ∧
    (let c := dec5 (entry s.width s.mem.read) s.param.pr.toNat (binWord s 0) (binWord s 1)
     wordInBout t 0 c.1 ∧ wordInBout t s.width.bytes c.2) ∧
    sameOutside s t 0x240 (0x240 + 2 * s.width.bytes)

/-- 44_rc5.md R116: with r = 0 RC5 is whitening alone, in both directions. -/
def Obligations.Rc5WithZeroRounds : Prop :=
  ∀ s : State, inContract s → s.param.pr = 0 →
    (∃ t, exec .enc5 s = .next t ∧
      wordInBout t 0 (binWord s 0 + entry s.width s.mem.read 0) ∧
      wordInBout t s.width.bytes (binWord s 1 + entry s.width s.mem.read 1)) ∧
    (∃ t, exec .dec5 s = .next t ∧
      wordInBout t 0 (binWord s 0 - entry s.width s.mem.read 0) ∧
      wordInBout t s.width.bytes (binWord s 1 - entry s.width s.mem.read 1))

/-- 44_rc5.md R117: for every table and every PARAM in contract, DEC5 of the output of ENC5 is the input,
and ENC5 of the output of DEC5 is the input; and a host that reads BLK_OUT and writes BLK_IN under one
lane setting copies the bytes exactly. -/
def Obligations.Rc5RoundTrip : Prop :=
  (∀ (op back : EngineOp) (s t u : State),
    (op, back) = (.enc5, .dec5) ∨ (op, back) = (.dec5, .enc5) → inContract s →
    exec op.instr s = .next t → u.width = t.width → u.param = t.param →
    (∀ k < 2 * s.param.pr.toNat + 2, entry s.width u.mem.read k = entry s.width t.mem.read k) →
    (∀ i < 2 * s.width.bytes, u.mem.read (0x200 + i) = t.mem.read (0x240 + i)) →
    ∃ v, exec back.instr u = .next v ∧
      ∀ i < 2 * s.width.bytes, v.mem.read (0x240 + i) = s.mem.read (0x200 + i)) ∧
  (∀ (s : State) (n : BitVec 12), idle s → n.toNat < 16 → ∃ t v,
    exec (.rd (0x90 + n) 0) s = .next t ∧ exec (.wr (0x80 + n) t.rdata) t = .next v ∧
    ∀ k < 4, v.mem.read (0x200 + 4 * n.toNat + k) = s.mem.read (0x240 + 4 * n.toNat + k))

/-! ## RC6 -/

/-- 45_rc6.md R118: ENC6 in contract, with its frame. -/
def Obligations.Enc6EncryptsTheBlock : Prop :=
  ∀ s : State, inContract s → ∃ t, exec .enc6 s = .next t ∧ completed s t ∧
    t.status.err = s.status.err ∧ t.draws = s.draws ∧
    (let c := enc6 (entry s.width s.mem.read) s.param.pr.toNat (binWord s 0) (binWord s 1) (binWord s 2)
        (binWord s 3)
     wordInBout t 0 c.1 ∧ wordInBout t s.width.bytes c.2.1 ∧ wordInBout t (2 * s.width.bytes) c.2.2.1 ∧
      wordInBout t (3 * s.width.bytes) c.2.2.2) ∧
    sameOutside s t 0x240 (0x240 + 4 * s.width.bytes)

/-- 45_rc6.md R119: DEC6 in contract, with its frame. -/
def Obligations.Dec6DecryptsTheBlock : Prop :=
  ∀ s : State, inContract s → ∃ t, exec .dec6 s = .next t ∧ completed s t ∧
    t.status.err = s.status.err ∧ t.draws = s.draws ∧
    (let c := dec6 (entry s.width s.mem.read) s.param.pr.toNat (binWord s 0) (binWord s 1) (binWord s 2)
        (binWord s 3)
     wordInBout t 0 c.1 ∧ wordInBout t s.width.bytes c.2.1 ∧ wordInBout t (2 * s.width.bytes) c.2.2.1 ∧
      wordInBout t (3 * s.width.bytes) c.2.2.2) ∧
    sameOutside s t 0x240 (0x240 + 4 * s.width.bytes)

/-- 45_rc6.md R121: with r = 0 RC6 is the four additions, in both directions. -/
def Obligations.Rc6WithZeroRounds : Prop :=
  ∀ s : State, inContract s → s.param.pr = 0 →
    (∃ t, exec .enc6 s = .next t ∧
      wordInBout t 0 (binWord s 0 + entry s.width s.mem.read 2) ∧
      wordInBout t s.width.bytes (binWord s 1 + entry s.width s.mem.read 0) ∧
      wordInBout t (2 * s.width.bytes) (binWord s 2 + entry s.width s.mem.read 3) ∧
      wordInBout t (3 * s.width.bytes) (binWord s 3 + entry s.width s.mem.read 1)) ∧
    (∃ t, exec .dec6 s = .next t ∧
      wordInBout t 0 (binWord s 0 - entry s.width s.mem.read 2) ∧
      wordInBout t s.width.bytes (binWord s 1 - entry s.width s.mem.read 0) ∧
      wordInBout t (2 * s.width.bytes) (binWord s 2 - entry s.width s.mem.read 3) ∧
      wordInBout t (3 * s.width.bytes) (binWord s 3 - entry s.width s.mem.read 1))

/-- 45_rc6.md R122: for every table and every PARAM in contract, each of ENC6 and DEC6 undoes the
other. -/
def Obligations.Rc6RoundTrip : Prop :=
  ∀ (op back : EngineOp) (s t u : State),
    (op, back) = (.enc6, .dec6) ∨ (op, back) = (.dec6, .enc6) → inContract s →
    exec op.instr s = .next t → u.width = t.width → u.param = t.param →
    (∀ k < 2 * s.param.pr.toNat + 4, entry s.width u.mem.read k = entry s.width t.mem.read k) →
    (∀ i < 4 * s.width.bytes, u.mem.read (0x200 + i) = t.mem.read (0x240 + i)) →
    ∃ v, exec back.instr u = .next v ∧
      ∀ i < 4 * s.width.bytes, v.mem.read (0x240 + i) = s.mem.read (0x200 + i)

/-! ## Crypt commands together -/

/-- 42_control.md R101: no crypt command sets ERR; out of contract the only effect is that BOUT[0..NB-1]
become free bytes (the model's draws, assumption log 4) and nothing else is written; in contract every
entry index a crypt rule uses is below SMAX. -/
def Obligations.OutOfContractCryptIsArbitrary : Prop :=
  ∀ (s : State) (op : EngineOp) (n : Nat), cryptWords op = some n →
    (∃ t, exec op.instr s = .next t ∧ t.status = { s.status with busy := false, done := true }) ∧
    (inContract s → 2 * s.param.pr.toNat + 3 < 508) ∧
    (¬ inContract s → ∃ m : Memory, exec op.instr s = .next { s with
        mem := m
        status := { s.status with busy := false, done := true }
        hidden := { s.hidden with phase := .idle }
        draws := s.draws + 1 } ∧
      (∀ i < n * s.width.bytes, m.read (0x240 + i) = Config.freeByte s.draws (0x240 + i)) ∧
      (∀ a, a < 0x240 ∨ 0x240 + n * s.width.bytes ≤ a → m.read a = s.mem.read a))

/-- 30_encoding.md R69: a crypt command in contract reads w, r, S[0..2r+n-1] and BIN[0..NB-1] and nothing
else; in particular not PARAM.PB, CTRL, KEY or the hidden registers. -/
def Obligations.CryptReadsOnlyItsInputs : Prop :=
  ∀ (s u : State) (op : EngineOp) (n : Nat), cryptWords op = some n → inContract s →
    u.width = s.width → u.param.pw = s.param.pw → u.param.pr = s.param.pr →
    (∀ k < 2 * s.param.pr.toNat + n, entry s.width u.mem.read k = entry s.width s.mem.read k) →
    (∀ i < n * s.width.bytes, u.mem.read (0x200 + i) = s.mem.read (0x200 + i)) →
    ∃ t v, exec op.instr s = .next t ∧ exec op.instr u = .next v ∧
      ∀ i < n * s.width.bytes, v.mem.read (0x240 + i) = t.mem.read (0x240 + i)

/-- 20_memory.md R52: the results of every command depend on the buffer bytes, S and PARAM, and never on
CTRL. (`draws` names the free values of an out-of-contract command.) -/
def Obligations.ResultsIgnoreByteLanes : Prop :=
  ∀ (s u : State) (op : EngineOp), u.width = s.width → u.param = s.param → u.draws = s.draws →
    (∀ a, u.mem.read a = s.mem.read a) →
    ∃ t v, exec op.instr s = .next t ∧ exec op.instr u = .next v ∧
      (∀ a, v.mem.read a = t.mem.read a) ∧
      ∀ c, exec op.instr { s with ctrl := c } = .next { t with ctrl := c }

/-! ## The whole machine -/

/-- Every step keeps the invariant. -/
def Obligations.StepKeepsInvariant : Prop :=
  ∀ s t : State, StateInv s → step s = .next t → StateInv t

/-- The invariant holds after reset, at every width. The hidden registers' values and the width of
`State.reset` are the model's choices (assumption log 5 and log 1). -/
def Obligations.InvariantHoldsAtReset : Prop :=
  (∀ w, StateInv (State.afterReset w)) ∧ StateInv State.reset

/-- 42_control.md R99 (weak fairness) and 70_reset_and_hazards.md R158, "No breach makes the block stuck
or hang": whatever the host presents, the run is answered to its end and no command stays in flight.
That the ENGINE moves once no input is left is the model's choice (assumption log 2). -/
def Obligations.EveryRunEndsIdle : Prop :=
  ∀ s : State, StateInv s → (∀ x ∈ s.inputs, x.ordinary = true) →
    ∃ t : State, core.run (s.inputs.length + 1) s = .next t ∧ t.ended = true

/-- 42_control.md R102: the inputs of the command in flight are stable, so that its result is the same
function of the state at acceptance however many transactions come before its completion. (`hidden` is
compared as well; its values are the model's choice, assumption log 5. The list of inputs is the model's
choice, assumption log 2.) -/
def Obligations.CommandInputsAreStable : Prop :=
  ∀ (s : State) (op : EngineOp) (ts : List (BitVec 45)), inFlight s → s.opl = some op →
    ∃ u : State, core.run ts.length ({ s with inputs := ts.map Input.transaction } : State) = .next u ∧
      inFlight u ∧ u.opl = some op ∧ u.param = s.param ∧ u.mem = s.mem ∧
      ∃ t v, exec op.instr s = .next t ∧ exec op.instr u = .next v ∧
        v.mem = t.mem ∧ v.param = t.param ∧ v.hidden = t.hidden ∧
        (s.status.err = false → v.status.err = t.status.err)

/-- A command from its CMD write to its completion, with any transactions in between: the result in KEY,
BIN, BOUT and S is that of the command on the state at acceptance, DONE is set, and ERR is set exactly for
a setup whose parameters are invalid (42_control.md R96, R99, R102; 60_exceptions.md R124, R127). The list
of inputs, the ENGINE's turn in it, is the model's choice (assumption log 2). -/
def Obligations.IssuedCommandRunsToCompletion : Prop :=
  ∀ (s : State) (op : EngineOp) (ts : List (BitVec 45)), idle s →
    ∃ u t : State,
      core.run (ts.length + 2) ({ s with inputs := issue op ts } : State) = .next u ∧
      exec op.instr s = .next t ∧ u.mem = t.mem ∧ u.param = s.param ∧ u.width = s.width ∧
      u.status.busy = false ∧ u.status.done = true ∧ u.status.ill = false ∧
      (u.status.err = true ↔ setupExtra op ≠ none ∧ ¬ setupOk s) ∧ u.ended = true

/-- 10_state.md R35, R36 and 60_exceptions.md R139: whatever the hidden registers and L hold, the host reads
the same values, and a run that ends has the same observation (70_reset_and_hazards.md R157). -/
def Obligations.HiddenStateIsUnobservable : Prop :=
  ∀ (n : Nat) (s t : State) (h : Hidden),
    readValues n { s with hidden := h } = readValues n s ∧
    (core.run n s = .next t → ∃ h', core.run n ({ s with hidden := h } : State) = .next { t with hidden := h' } ∧
      ({ t with hidden := h' } : State).observe = t.observe)

/-- 10_state.md R31 to R34, who writes what: KEY and BIN only the host through their windows; BOUT only a
crypt command or the reset that aborts one; S only a valid setup, the host through the S window, or
the reset that aborts a setup. -/
def Obligations.StorageHasItsOwnWriters : Prop :=
  ∀ s t : State, step s = .next t →
    (∀ i < 256, t.mem.read (0x100 + i) ≠ s.mem.read (0x100 + i) →
      idle s ∧ ∃ q d, writing s q d ∧ addr q = 0x100 + 4 * (i / 4)) ∧
    (∀ i < 64, t.mem.read (0x200 + i) ≠ s.mem.read (0x200 + i) →
      idle s ∧ ∃ q d, writing s q d ∧ addr q = 0x200 + 4 * (i / 4)) ∧
    (∀ i < 64, t.mem.read (0x240 + i) ≠ s.mem.read (0x240 + i) →
      ∃ op n, s.opl = some op ∧ cryptWords op = some n ∧ i < n * s.width.bytes ∧
        (completing s ∨ (s.status.busy = true ∧ s.inputs.head? = some (.rst true)))) ∧
    (∀ k < 508, entry s.width t.mem.read k ≠ entry s.width s.mem.read k →
      (∃ op x, s.opl = some op ∧ setupExtra op = some x ∧ setupOk s ∧ k < 2 * s.param.pr.toNat + x ∧
        (completing s ∨ (s.status.busy = true ∧ s.inputs.head? = some (.rst true)))) ∨
      (idle s ∧ ∃ q d, writing s q d ∧ 0x2000 ≤ addr q ∧ (addr q - 0x2000) / 4 / s.width.nsw = k))
end

