-- ==== Sys2Proof/Laws/State.lean ====
section
/-! SUPPORT. One lemma per field for each named update of State, so that no later proof unfolds a record
update. -/

namespace Sys2Proof.Machine

/-! ## clearForAccept -/

@[simp] theorem State.clearForAccept_width (s : State) : s.clearForAccept.width = s.width := rfl
@[simp] theorem State.clearForAccept_ctrl (s : State) : s.clearForAccept.ctrl = s.ctrl := rfl
@[simp] theorem State.clearForAccept_param (s : State) : s.clearForAccept.param = s.param := rfl
@[simp] theorem State.clearForAccept_status (s : State) :
    s.clearForAccept.status = { s.status with done := false, err := false, ill := false } := rfl
@[simp] theorem State.clearForAccept_opl (s : State) : s.clearForAccept.opl = s.opl := rfl
@[simp] theorem State.clearForAccept_mem (s : State) : s.clearForAccept.mem = s.mem := rfl
@[simp] theorem State.clearForAccept_hidden (s : State) : s.clearForAccept.hidden = s.hidden := rfl
@[simp] theorem State.clearForAccept_rst (s : State) : s.clearForAccept.rst = s.rst := rfl
@[simp] theorem State.clearForAccept_rdata (s : State) : s.clearForAccept.rdata = s.rdata := rfl
@[simp] theorem State.clearForAccept_inputs (s : State) : s.clearForAccept.inputs = s.inputs := rfl
@[simp] theorem State.clearForAccept_draws (s : State) : s.clearForAccept.draws = s.draws := rfl

/-! ## setColl -/

@[simp] theorem State.setColl_width (s : State) : s.setColl.width = s.width := rfl
@[simp] theorem State.setColl_ctrl (s : State) : s.setColl.ctrl = s.ctrl := rfl
@[simp] theorem State.setColl_param (s : State) : s.setColl.param = s.param := rfl
@[simp] theorem State.setColl_status (s : State) :
    s.setColl.status = { s.status with coll := true } := rfl
@[simp] theorem State.setColl_opl (s : State) : s.setColl.opl = s.opl := rfl
@[simp] theorem State.setColl_mem (s : State) : s.setColl.mem = s.mem := rfl
@[simp] theorem State.setColl_hidden (s : State) : s.setColl.hidden = s.hidden := rfl
@[simp] theorem State.setColl_rst (s : State) : s.setColl.rst = s.rst := rfl
@[simp] theorem State.setColl_rdata (s : State) : s.setColl.rdata = s.rdata := rfl
@[simp] theorem State.setColl_inputs (s : State) : s.setColl.inputs = s.inputs := rfl
@[simp] theorem State.setColl_draws (s : State) : s.setColl.draws = s.draws := rfl

/-! ## setErr -/

@[simp] theorem State.setErr_width (s : State) : s.setErr.width = s.width := rfl
@[simp] theorem State.setErr_ctrl (s : State) : s.setErr.ctrl = s.ctrl := rfl
@[simp] theorem State.setErr_param (s : State) : s.setErr.param = s.param := rfl
@[simp] theorem State.setErr_status (s : State) :
    s.setErr.status = { s.status with err := true } := rfl
@[simp] theorem State.setErr_opl (s : State) : s.setErr.opl = s.opl := rfl
@[simp] theorem State.setErr_mem (s : State) : s.setErr.mem = s.mem := rfl
@[simp] theorem State.setErr_hidden (s : State) : s.setErr.hidden = s.hidden := rfl
@[simp] theorem State.setErr_rst (s : State) : s.setErr.rst = s.rst := rfl
@[simp] theorem State.setErr_rdata (s : State) : s.setErr.rdata = s.rdata := rfl
@[simp] theorem State.setErr_inputs (s : State) : s.setErr.inputs = s.inputs := rfl
@[simp] theorem State.setErr_draws (s : State) : s.setErr.draws = s.draws := rfl

/-! ## setIllegal -/

@[simp] theorem State.setIllegal_width (s : State) : s.setIllegal.width = s.width := rfl
@[simp] theorem State.setIllegal_ctrl (s : State) : s.setIllegal.ctrl = s.ctrl := rfl
@[simp] theorem State.setIllegal_param (s : State) : s.setIllegal.param = s.param := rfl
@[simp] theorem State.setIllegal_status (s : State) :
    s.setIllegal.status = { s.status with ill := true, done := true } := rfl
@[simp] theorem State.setIllegal_opl (s : State) : s.setIllegal.opl = s.opl := rfl
@[simp] theorem State.setIllegal_mem (s : State) : s.setIllegal.mem = s.mem := rfl
@[simp] theorem State.setIllegal_hidden (s : State) : s.setIllegal.hidden = s.hidden := rfl
@[simp] theorem State.setIllegal_rst (s : State) : s.setIllegal.rst = s.rst := rfl
@[simp] theorem State.setIllegal_rdata (s : State) : s.setIllegal.rdata = s.rdata := rfl
@[simp] theorem State.setIllegal_inputs (s : State) : s.setIllegal.inputs = s.inputs := rfl
@[simp] theorem State.setIllegal_draws (s : State) : s.setIllegal.draws = s.draws := rfl

/-! ## setDone -/

@[simp] theorem State.setDone_width (s : State) : s.setDone.width = s.width := rfl
@[simp] theorem State.setDone_ctrl (s : State) : s.setDone.ctrl = s.ctrl := rfl
@[simp] theorem State.setDone_param (s : State) : s.setDone.param = s.param := rfl
@[simp] theorem State.setDone_status (s : State) :
    s.setDone.status = { s.status with done := true } := rfl
@[simp] theorem State.setDone_opl (s : State) : s.setDone.opl = s.opl := rfl
@[simp] theorem State.setDone_mem (s : State) : s.setDone.mem = s.mem := rfl
@[simp] theorem State.setDone_hidden (s : State) : s.setDone.hidden = s.hidden := rfl
@[simp] theorem State.setDone_rst (s : State) : s.setDone.rst = s.rst := rfl
@[simp] theorem State.setDone_rdata (s : State) : s.setDone.rdata = s.rdata := rfl
@[simp] theorem State.setDone_inputs (s : State) : s.setDone.inputs = s.inputs := rfl
@[simp] theorem State.setDone_draws (s : State) : s.setDone.draws = s.draws := rfl

/-! ## latch -/

@[simp] theorem State.latch_width (s : State) (op : EngineOp) : (s.latch op).width = s.width := rfl
@[simp] theorem State.latch_ctrl (s : State) (op : EngineOp) : (s.latch op).ctrl = s.ctrl := rfl
@[simp] theorem State.latch_param (s : State) (op : EngineOp) : (s.latch op).param = s.param := rfl
@[simp] theorem State.latch_status (s : State) (op : EngineOp) :
    (s.latch op).status = { s.status with busy := true } := rfl
@[simp] theorem State.latch_opl (s : State) (op : EngineOp) : (s.latch op).opl = some op := rfl
@[simp] theorem State.latch_mem (s : State) (op : EngineOp) : (s.latch op).mem = s.mem := rfl
@[simp] theorem State.latch_hidden (s : State) (op : EngineOp) :
    (s.latch op).hidden = { s.hidden with phase := .inFlight } := rfl
@[simp] theorem State.latch_rst (s : State) (op : EngineOp) : (s.latch op).rst = s.rst := rfl
@[simp] theorem State.latch_rdata (s : State) (op : EngineOp) : (s.latch op).rdata = s.rdata := rfl
@[simp] theorem State.latch_inputs (s : State) (op : EngineOp) : (s.latch op).inputs = s.inputs := rfl
@[simp] theorem State.latch_draws (s : State) (op : EngineOp) : (s.latch op).draws = s.draws := rfl

/-! ## complete -/

@[simp] theorem State.complete_width (s : State) : s.complete.width = s.width := rfl
@[simp] theorem State.complete_ctrl (s : State) : s.complete.ctrl = s.ctrl := rfl
@[simp] theorem State.complete_param (s : State) : s.complete.param = s.param := rfl
@[simp] theorem State.complete_status (s : State) :
    s.complete.status = { s.status with busy := false, done := true } := rfl
@[simp] theorem State.complete_opl (s : State) : s.complete.opl = s.opl := rfl
@[simp] theorem State.complete_mem (s : State) : s.complete.mem = s.mem := rfl
@[simp] theorem State.complete_hidden (s : State) :
    s.complete.hidden = { s.hidden with phase := .idle } := rfl
@[simp] theorem State.complete_rst (s : State) : s.complete.rst = s.rst := rfl
@[simp] theorem State.complete_rdata (s : State) : s.complete.rdata = s.rdata := rfl
@[simp] theorem State.complete_inputs (s : State) : s.complete.inputs = s.inputs := rfl
@[simp] theorem State.complete_draws (s : State) : s.complete.draws = s.draws := rfl

/-! ## arbitraryBlock -/

@[simp] theorem arbitraryBlock_width (nb : Nat) (s : State) : (arbitraryBlock nb s).width = s.width := rfl
@[simp] theorem arbitraryBlock_ctrl (nb : Nat) (s : State) : (arbitraryBlock nb s).ctrl = s.ctrl := rfl
@[simp] theorem arbitraryBlock_param (nb : Nat) (s : State) : (arbitraryBlock nb s).param = s.param := rfl
@[simp] theorem arbitraryBlock_status (nb : Nat) (s : State) :
    (arbitraryBlock nb s).status = s.status := rfl
@[simp] theorem arbitraryBlock_opl (nb : Nat) (s : State) : (arbitraryBlock nb s).opl = s.opl := rfl
@[simp] theorem arbitraryBlock_hidden (nb : Nat) (s : State) :
    (arbitraryBlock nb s).hidden = s.hidden := rfl
@[simp] theorem arbitraryBlock_rst (nb : Nat) (s : State) : (arbitraryBlock nb s).rst = s.rst := rfl
@[simp] theorem arbitraryBlock_rdata (nb : Nat) (s : State) : (arbitraryBlock nb s).rdata = s.rdata := rfl
@[simp] theorem arbitraryBlock_inputs (nb : Nat) (s : State) :
    (arbitraryBlock nb s).inputs = s.inputs := rfl
@[simp] theorem arbitraryBlock_draws (nb : Nat) (s : State) :
    (arbitraryBlock nb s).draws = s.draws + 1 := rfl

/-! ## applyReset -/

@[simp] theorem applyReset_width (s : State) : (applyReset s).width = s.width := rfl
@[simp] theorem applyReset_ctrl (s : State) : (applyReset s).ctrl = { ie := false, hbe := false } := rfl
@[simp] theorem applyReset_param (s : State) : (applyReset s).param = { pw := 0, pr := 0, pb := 0 } := rfl
@[simp] theorem applyReset_status (s : State) : (applyReset s).status =
    { busy := false, done := false, err := false, ill := false, coll := false } := rfl
@[simp] theorem applyReset_opl (s : State) : (applyReset s).opl = none := rfl
@[simp] theorem applyReset_mem (s : State) : (applyReset s).mem = abortMemory s := rfl
@[simp] theorem applyReset_hidden (s : State) : (applyReset s).hidden = Hidden.reset s.width := rfl
@[simp] theorem applyReset_rst (s : State) : (applyReset s).rst = true := rfl
@[simp] theorem applyReset_rdata (s : State) : (applyReset s).rdata = s.rdata := rfl
@[simp] theorem applyReset_inputs (s : State) : (applyReset s).inputs = s.inputs := rfl
@[simp] theorem applyReset_draws (s : State) : (applyReset s).draws = s.draws + 1 := rfl

end Sys2Proof.Machine
end

