-- ==== Sys2Proof/Laws/Memory.lean ====
section
/-! SUPPORT. What the memory operations of Machine/Ops.lean do: read after write, nothing else changed,
and the canonical form kept. -/

namespace Sys2Proof.Machine

theorem Memory.known_write (m : Memory) (a b : Nat) (v : Byte) :
    (m.write a v).known b = if b = a then some v else m.known b := by
  induction m with
  | nil =>
    by_cases h : a = b
    · simp [Memory.write, Memory.known, h]
    · simp [Memory.write, Memory.known, h, Ne.symm h]
  | cons c m ih =>
    obtain ⟨k, x⟩ := c
    simp only [Memory.write]
    split
    · by_cases h : a = b
      · simp [Memory.known, h]
      · simp [Memory.known, h, Ne.symm h]
    · split
      · rename_i hk
        subst hk
        by_cases h : a = b
        · simp [Memory.known, h]
        · simp [Memory.known, h, Ne.symm h]
      · rename_i hlt hne
        by_cases hkb : k = b
        · subst hkb
          simp [Memory.known, Ne.symm hne]
        · simp [Memory.known, hkb, ih]

theorem Memory.read_write (m : Memory) (a b : Nat) (v : Byte) :
    (m.write a v).read b = if b = a then v else m.read b := by
  simp only [Memory.read, Memory.known_write]
  split <;> simp_all

/-- One lemma for a run of bytes: inside the run its own bytes, outside it nothing changed. -/
theorem Memory.read_writeBytes (vs : List Byte) (m : Memory) (a b : Nat) :
    (m.writeBytes a vs).read b =
      if a ≤ b ∧ b < a + vs.length then vs.getD (b - a) 0 else m.read b := by
  induction vs generalizing a with
  | nil => simp [Memory.writeBytes]
  | cons v vs ih =>
    simp only [Memory.writeBytes, Memory.read_write, ih, List.length_cons]
    by_cases h : b = a
    · subst h; simp
    · by_cases h2 : a + 1 ≤ b ∧ b < a + 1 + vs.length
      · have h3 : a ≤ b ∧ b < a + (vs.length + 1) := by omega
        have h4 : b - a = (b - (a + 1)) + 1 := by omega
        simp only [h, h2, h3, if_true, if_false, and_self]
        rw [h4, List.getD_cons_succ]
      · have h3 : ¬ (a ≤ b ∧ b < a + (vs.length + 1)) := by omega
        simp only [h, h2, h3, if_false]

theorem Memory.read_writeBytes_in {vs : List Byte} {m : Memory} {a i : Nat} (h : i < vs.length) :
    (m.writeBytes a vs).read (a + i) = vs.getD i 0 := by
  rw [Memory.read_writeBytes, if_pos (by omega)]
  congr 1
  omega

theorem Memory.read_writeBytes_out {vs : List Byte} {m : Memory} {a b : Nat}
    (h : b < a ∨ a + vs.length ≤ b) : (m.writeBytes a vs).read b = m.read b := by
  rw [Memory.read_writeBytes, if_neg (by omega)]

/-! ## Canonical form -/

theorem Memory.mem_write {m : Memory} {a : Nat} {v : Byte} {c : Host.Cell} (h : c ∈ m.write a v) :
    c = (a, v) ∨ c ∈ m := by
  induction m with
  | nil => simpa [Memory.write] using h
  | cons d m ih =>
    obtain ⟨k, x⟩ := d
    simp only [Memory.write] at h
    split at h
    · simpa using h
    · split at h
      · rcases List.mem_cons.mp h with h | h
        · exact .inl h
        · exact .inr (List.mem_cons_of_mem _ h)
      · rcases List.mem_cons.mp h with h | h
        · exact .inr (h ▸ List.mem_cons_self)
        · rcases ih h with h | h
          · exact .inl h
          · exact .inr (List.mem_cons_of_mem _ h)

theorem Memory.wf_write {m : Memory} (h : m.wf) (a : Nat) (v : Byte) : (m.write a v).wf := by
  induction m with
  | nil => simp [Memory.write, Memory.wf]
  | cons d m ih =>
    obtain ⟨k, x⟩ := d
    have hk := (List.pairwise_cons.mp h).1
    have hm := (List.pairwise_cons.mp h).2
    simp only [Memory.write]
    split
    · rename_i hlt
      refine List.pairwise_cons.mpr ⟨fun c hc => ?_, h⟩
      rcases List.mem_cons.mp hc with rfl | hc
      · exact hlt
      · exact Nat.lt_trans hlt (hk c hc)
    · split
      · rename_i hak
        exact List.pairwise_cons.mpr ⟨fun c hc => hak ▸ hk c hc, hm⟩
      · refine List.pairwise_cons.mpr ⟨fun c hc => ?_, ih hm⟩
        rcases Memory.mem_write hc with rfl | hc
        · simp only; omega
        · exact hk c hc

theorem Memory.wf_writeBytes {m : Memory} (h : m.wf) (vs : List Byte) (a : Nat) :
    (m.writeBytes a vs).wf := by
  induction vs generalizing a with
  | nil => exact h
  | cons v vs ih => exact Memory.wf_write (ih (a + 1)) a v

theorem Memory.mem_writeBytes {vs : List Byte} {m : Memory} {a : Nat} {c : Host.Cell}
    (h : c ∈ m.writeBytes a vs) : (a ≤ c.1 ∧ c.1 < a + vs.length) ∨ c ∈ m := by
  induction vs generalizing a with
  | nil => exact .inr h
  | cons v vs ih =>
    rcases Memory.mem_write h with rfl | h
    · left; simp
    · rcases ih h with h | h
      · left; simp only [List.length_cons]; omega
      · exact .inr h

/-- Two canonical memories that know the same bytes are the same list. -/
theorem Memory.eq_of_known {m n : Memory} (hm : m.wf) (hn : n.wf)
    (h : ∀ a, m.known a = n.known a) : m = n := by
  have none_below : ∀ (p : Memory) (a : Nat), (∀ c ∈ p, a < c.1) → p.known a = none := by
    intro p a hp
    induction p with
    | nil => rfl
    | cons c p ih =>
      obtain ⟨k, x⟩ := c
      have hk : a < k := hp (k, x) List.mem_cons_self
      simp only [Memory.known]
      rw [if_neg (by omega)]
      exact ih fun c hc => hp c (List.mem_cons_of_mem _ hc)
  induction m generalizing n with
  | nil =>
    cases n with
    | nil => rfl
    | cons d n => have := h d.1; simp [Memory.known] at this
  | cons c m ih =>
    obtain ⟨k, x⟩ := c
    cases n with
    | nil => have := h k; simp [Memory.known] at this
    | cons d n =>
      obtain ⟨j, y⟩ := d
      have hm' := List.pairwise_cons.mp hm
      have hn' := List.pairwise_cons.mp hn
      have hkj : k = j := by
        rcases Nat.lt_trichotomy k j with hlt | heq | hgt
        · have := h k
          rw [none_below ((j, y) :: n) k] at this
          · simp [Memory.known] at this
          · intro c hc
            rcases List.mem_cons.mp hc with rfl | hc
            · exact hlt
            · exact Nat.lt_trans hlt (hn'.1 c hc)
        · exact heq
        · have := h j
          rw [none_below ((k, x) :: m) j] at this
          · simp [Memory.known] at this
          · intro c hc
            rcases List.mem_cons.mp hc with rfl | hc
            · exact hgt
            · exact Nat.lt_trans hgt (hm'.1 c hc)
      subst hkj
      have hxy : x = y := by simpa [Memory.known] using h k
      subst hxy
      congr 1
      refine ih hm'.2 hn'.2 fun a => ?_
      by_cases ha : k = a
      · subst ha
        rw [none_below m k fun c hc => hm'.1 c hc, none_below n k fun c hc => hn'.1 c hc]
      · simpa [Memory.known, ha] using h a

/-! ## Runs read back, little-order numbers -/

@[simp] theorem Memory.length_readBytes (m : Memory) (a n : Nat) : (m.readBytes a n).length = n := by
  induction n generalizing a with
  | zero => rfl
  | succ n ih => simp [Memory.readBytes, ih]

theorem Memory.getD_readBytes {m : Memory} {a n i : Nat} (h : i < n) :
    (m.readBytes a n).getD i 0 = m.read (a + i) := by
  induction n generalizing a i with
  | zero => omega
  | succ n ih =>
    cases i with
    | zero => simp [Memory.readBytes]
    | succ i =>
      rw [Memory.readBytes, List.getD_cons_succ, ih (by omega)]
      congr 1
      omega

theorem Memory.readBytes_congr {m m' : Memory} {a n : Nat}
    (h : ∀ i < n, m.read (a + i) = m'.read (a + i)) : m.readBytes a n = m'.readBytes a n := by
  induction n generalizing a with
  | zero => rfl
  | succ n ih =>
    simp only [Memory.readBytes]
    rw [show m.read a = m'.read a from h 0 (by omega),
      ih fun i hi => by have := h (i + 1) (by omega); rwa [show a + (i + 1) = a + 1 + i by omega] at this]

theorem Memory.readLE_congr {m m' : Memory} {a n : Nat}
    (h : ∀ i < n, m.read (a + i) = m'.read (a + i)) : m.readLE a n = m'.readLE a n := by
  unfold Memory.readLE
  rw [Memory.readBytes_congr h]

@[simp] theorem length_toLE (n v : Nat) : (toLE n v).length = n := by
  induction n generalizing v with
  | zero => rfl
  | succ n ih => simp [toLE, ih]

theorem getD_toLE {n v i : Nat} (h : i < n) : (toLE n v).getD i 0 = BitVec.ofNat 8 (v / 256 ^ i) := by
  induction n generalizing v i with
  | zero => omega
  | succ n ih =>
    cases i with
    | zero => simp [toLE]
    | succ i =>
      rw [toLE, List.getD_cons_succ, ih (by omega), Nat.div_div_eq_div_mul, Nat.pow_succ, Nat.mul_comm]

theorem fromLE_toLE (n v : Nat) : fromLE (toLE n v) = v % 256 ^ n := by
  induction n generalizing v with
  | zero => simp [toLE, fromLE, Nat.mod_one]
  | succ n ih =>
    simp only [toLE, fromLE, ih, BitVec.toNat_ofNat]
    rw [show 256 ^ (n + 1) = 256 * 256 ^ n by ring, Nat.mod_mul]

theorem fromLE_lt (bs : List Byte) : fromLE bs < 256 ^ bs.length := by
  induction bs with
  | nil => simp [fromLE]
  | cons b bs ih =>
    have := b.isLt
    simp only [fromLE, List.length_cons, Nat.pow_succ]
    omega

theorem fromLE_byte (bs : List Byte) (i : Nat) :
    BitVec.ofNat 8 (fromLE bs / 256 ^ i) = bs.getD i 0 := by
  induction bs generalizing i with
  | nil => simp [fromLE]
  | cons b bs ih =>
    cases i with
    | zero =>
      apply BitVec.eq_of_toNat_eq
      have := b.isLt
      simp only [fromLE, Nat.pow_zero, Nat.div_one, BitVec.toNat_ofNat, List.getD_cons_zero]
      omega
    | succ i =>
      rw [List.getD_cons_succ, ← ih]
      congr 1
      rw [Nat.pow_succ, Nat.mul_comm, ← Nat.div_div_eq_div_mul]
      congr 1
      have := b.isLt
      simp only [fromLE]
      omega

/-- A run just written reads back as its number. -/
theorem Memory.readLE_writeBytes_toLE (m : Memory) (a n v : Nat) :
    (m.writeBytes a (toLE n v)).readLE a n = v % 256 ^ n := by
  have h : (m.writeBytes a (toLE n v)).readBytes a n = toLE n v := by
    apply List.ext_getElem (by simp)
    intro i h1 h2
    have hi : i < n := by simpa using h1
    have e1 := Memory.getD_readBytes (m := m.writeBytes a (toLE n v)) (a := a) hi
    rw [Memory.read_writeBytes_in (by simpa using hi)] at e1
    simpa [List.getD_eq_getElem?_getD, List.getElem?_eq_getElem h1, List.getElem?_eq_getElem h2] using e1
  rw [Memory.readLE, h, fromLE_toLE]

@[simp] theorem length_drawBytes (d a n : Nat) : (drawBytes d a n).length = n := by
  induction n generalizing a with
  | zero => rfl
  | succ n ih => simp [drawBytes, ih]

theorem getD_drawBytes {d a n i : Nat} (h : i < n) :
    (drawBytes d a n).getD i 0 = Config.freeByte d (a + i) := by
  induction n generalizing a i with
  | zero => omega
  | succ n ih =>
    cases i with
    | zero => simp [drawBytes]
    | succ i =>
      rw [drawBytes, List.getD_cons_succ, ih (by omega)]
      congr 1
      omega

end Sys2Proof.Machine
end

