-- ==== Sys2Proof/Laws/Words.lean ====
section
/-! SUPPORT. Facts about the widths, and what packing a word, writing a table of S and writing a block do
to memory: each says what reads back and that every other address is left alone. -/

namespace Sys2Proof

theorem WordWidth.bits_eq (w : WordWidth) : w.bits = 8 * w.bytes := by cases w <;> rfl

theorem WordWidth.bytes_pos (w : WordWidth) : 0 < w.bytes := by cases w <;> decide

theorem WordWidth.bytes_le (w : WordWidth) : w.bytes ≤ 16 := by cases w <;> decide

theorem WordWidth.bytes_le_stride (w : WordWidth) : w.bytes ≤ 4 * w.nsw := by cases w <;> decide

theorem WordWidth.nsw_pos (w : WordWidth) : 0 < w.nsw := by cases w <;> decide

theorem WordWidth.pow_bits (w : WordWidth) : 2 ^ w.bits = 256 ^ w.bytes := by
  rw [w.bits_eq, Nat.pow_mul]

namespace Machine

@[simp] theorem length_wordBytes {w : WordWidth} (x : Word w) : (wordBytes x).length = w.bytes :=
  length_toLE _ _

/-- Packing what was unpacked gives the word back (41_datapath.md R91). -/
theorem packLE_unpackLE {w : WordWidth} (m : Memory) (a : Nat) (x : Word w) :
    packLE w (unpackLE m a x) a = x := by
  unfold packLE unpackLE wordBytes
  rw [Memory.readLE_writeBytes_toLE, ← w.pow_bits, Nat.mod_eq_of_lt x.isLt]
  simp

theorem packLE_congr {w : WordWidth} {m m' : Memory} {a : Nat}
    (h : ∀ i < w.bytes, m.read (a + i) = m'.read (a + i)) : packLE w m a = packLE w m' a := by
  unfold packLE
  rw [Memory.readLE_congr h]

theorem read_unpackLE_out {w : WordWidth} {m : Memory} {a b : Nat} {x : Word w}
    (h : b < a ∨ a + w.bytes ≤ b) : (unpackLE m a x).read b = m.read b :=
  Memory.read_writeBytes_out (by simpa using h)

theorem packLE_unpackLE_out {w : WordWidth} {m : Memory} {a b : Nat} {x : Word w}
    (h : b + w.bytes ≤ a ∨ a + w.bytes ≤ b) : packLE w (unpackLE m a x) b = packLE w m b :=
  packLE_congr fun i hi => read_unpackLE_out (by omega)

/-! ## Entries of S -/

theorem sAddr_succ (w : WordWidth) (k : Nat) : sAddr w (k + 1) = sAddr w k + 4 * w.nsw := by
  simp only [sAddr, Nat.mul_add, Nat.mul_one, Nat.add_assoc]

theorem sAddr_lt {w : WordWidth} {j k : Nat} (h : j < k) : sAddr w j + w.bytes ≤ sAddr w k := by
  have h1 : w.nsw * (j + 1) ≤ w.nsw * k := Nat.mul_le_mul_left _ h
  have h2 := w.bytes_le_stride
  simp only [sAddr]
  rw [Nat.mul_add] at h1
  omega

theorem sEntry_unpackLE {w : WordWidth} (m : Memory) (j k : Nat) (x : Word w) :
    sEntry w (unpackLE m (sAddr w k) x) j = if j = k then x else sEntry w m j := by
  split
  · rename_i h
    subst h
    exact packLE_unpackLE m _ x
  · rename_i h
    rcases Nat.lt_or_gt_of_ne h with h | h
    · exact packLE_unpackLE_out (.inl (sAddr_lt h))
    · exact packLE_unpackLE_out (.inr (sAddr_lt h))

/-- What a table write leaves in every entry of S. -/
theorem sEntry_writeTable {w : WordWidth} (xs : List (Word w)) (m : Memory) (k j : Nat) :
    sEntry w (writeTable m k xs) j =
      if k ≤ j ∧ j < k + xs.length then xs.getD (j - k) 0 else sEntry w m j := by
  induction xs generalizing k with
  | nil => simp [writeTable]
  | cons x xs ih =>
    simp only [writeTable, sEntry_unpackLE, ih, List.length_cons]
    by_cases h : j = k
    · subst h; simp
    · by_cases h2 : k + 1 ≤ j ∧ j < k + 1 + xs.length
      · have h3 : k ≤ j ∧ j < k + (xs.length + 1) := by omega
        have h4 : j - k = (j - (k + 1)) + 1 := by omega
        simp only [h, h2, h3, if_true, if_false, and_self]
        rw [h4, List.getD_cons_succ]
      · have h3 : ¬ (k ≤ j ∧ j < k + (xs.length + 1)) := by omega
        simp only [h, h2, h3, if_false]

/-- A table write changes no byte below its first entry or from the entry after its last one up. -/
theorem read_writeTable_out {w : WordWidth} (xs : List (Word w)) {m : Memory} {k b : Nat}
    (h : b < sAddr w k ∨ sAddr w (k + xs.length) ≤ b) : (writeTable m k xs).read b = m.read b := by
  induction xs generalizing k with
  | nil => rfl
  | cons x xs ih =>
    have h1 : sAddr w k < sAddr w (k + 1) := by rw [sAddr_succ]; have := w.nsw_pos; omega
    have h2 : sAddr w k + w.bytes ≤ sAddr w (k + (xs.length + 1)) := sAddr_lt (by omega)
    simp only [List.length_cons] at h
    rw [writeTable, read_unpackLE_out (by omega), ih]
    rw [show k + 1 + xs.length = k + (xs.length + 1) by omega]
    omega

/-- A table write changes no byte that belongs to no entry it writes. -/
theorem read_writeTable_gap {w : WordWidth} (xs : List (Word w)) {m : Memory} {k b : Nat}
    (h : ∀ j, k ≤ j → j < k + xs.length → b < sAddr w j ∨ sAddr w j + w.bytes ≤ b) :
    (writeTable m k xs).read b = m.read b := by
  induction xs generalizing k with
  | nil => rfl
  | cons x xs ih =>
    simp only [List.length_cons] at h
    rw [writeTable, read_unpackLE_out (h k (by omega) (by omega)),
      ih fun j h1 h2 => h j (by omega) (by omega)]

theorem wf_writeTable {w : WordWidth} {m : Memory} (h : m.wf) (xs : List (Word w)) (k : Nat) :
    (writeTable m k xs).wf := by
  induction xs generalizing k with
  | nil => exact h
  | cons x xs ih => exact Memory.wf_writeBytes (ih (k + 1)) _ _

theorem mem_writeTable {w : WordWidth} {xs : List (Word w)} {m : Memory} {k : Nat} {c : Host.Cell}
    (h : c ∈ writeTable m k xs) :
    (∃ j, k ≤ j ∧ j < k + xs.length ∧ sAddr w j ≤ c.1 ∧ c.1 < sAddr w j + w.bytes) ∨ c ∈ m := by
  induction xs generalizing k with
  | nil => exact .inr h
  | cons x xs ih =>
    rcases Memory.mem_writeBytes h with h | h
    · exact .inl ⟨k, by omega, by simp, by simpa using h⟩
    · rcases ih h with ⟨j, h1, h2, h3⟩ | h
      · exact .inl ⟨j, by omega, by simp only [List.length_cons]; omega, h3⟩
      · exact .inr h

/-! ## Tables of draws -/

/-- Which byte a table of draws leaves at an address. -/
theorem read_drawTable_in {w : WordWidth} {d n k i : Nat} {m : Memory} (hk : k < n) (hi : i < w.bytes) :
    (drawTable w d m n).read (sAddr w k + i) = Config.freeByte d (sAddr w k + i) := by
  induction n with
  | zero => omega
  | succ n ih =>
    rw [drawTable]
    by_cases h : k = n
    · subst h
      rw [Memory.read_writeBytes_in (by simpa using hi), getD_drawBytes hi]
    · have h1 : sAddr w k + w.bytes ≤ sAddr w n := sAddr_lt (by omega)
      rw [Memory.read_writeBytes_out (by omega), ih (by omega)]

theorem read_drawTable_gap {w : WordWidth} {d n b : Nat} {m : Memory}
    (h : ∀ j < n, b < sAddr w j ∨ sAddr w j + w.bytes ≤ b) : (drawTable w d m n).read b = m.read b := by
  induction n with
  | zero => rfl
  | succ n ih =>
    rw [drawTable, Memory.read_writeBytes_out (by simpa using h n (by omega)),
      ih fun j hj => h j (by omega)]

theorem wf_drawTable {w : WordWidth} {m : Memory} (h : m.wf) (d n : Nat) : (drawTable w d m n).wf := by
  induction n with
  | zero => exact h
  | succ n ih => exact Memory.wf_writeBytes ih _ _

theorem mem_drawTable {w : WordWidth} {d n : Nat} {m : Memory} {c : Host.Cell}
    (h : c ∈ drawTable w d m n) :
    (∃ j < n, sAddr w j ≤ c.1 ∧ c.1 < sAddr w j + w.bytes) ∨ c ∈ m := by
  induction n with
  | zero => exact .inr h
  | succ n ih =>
    rcases Memory.mem_writeBytes h with h | h
    · exact .inl ⟨n, by omega, by simpa using h⟩
    · rcases ih h with ⟨j, h1, h2⟩ | h
      · exact .inl ⟨j, by omega, h2⟩
      · exact .inr h

/-! ## Blocks -/

@[simp] theorem length_bytesOf (d : BusWord) (hbe : Bool) : (bytesOf d hbe).length = 4 := by
  cases hbe <;> rfl

theorem writePair_eq {w : WordWidth} (m : Memory) (a : Nat) (v : Pair w) :
    (writePair m a v).read = (unpackLE (unpackLE m a v.a) (a + w.bytes) v.b).read := by
  funext b
  simp only [writePair, unpackLE, Memory.read_writeBytes, List.length_append, length_wordBytes]
  split
  · rename_i h
    by_cases h1 : a + w.bytes ≤ b
    · rw [if_pos (by omega), List.getD_append_right _ _ _ _ (by simp; omega)]
      congr 1
      simp only [length_wordBytes]
      omega
    · rw [if_neg (by omega), if_pos (by omega), List.getD_append _ _ _ _ (by simp; omega)]
  · rw [if_neg (by omega), if_neg (by omega)]

theorem readPair_congr {w : WordWidth} {m m' : Memory} {a : Nat}
    (h : ∀ i < 2 * w.bytes, m.read (a + i) = m'.read (a + i)) : readPair w m a = readPair w m' a := by
  simp only [readPair, Pair.mk.injEq]
  refine ⟨packLE_congr fun i hi => h i (by omega), packLE_congr fun i hi => ?_⟩
  have := h (w.bytes + i) (by omega)
  rwa [← Nat.add_assoc] at this

/-- A block written to a buffer reads back (41_datapath.md R91). -/
theorem readPair_writePair {w : WordWidth} (m : Memory) (a : Nat) (v : Pair w) :
    readPair w (writePair m a v) a = v := by
  rw [readPair_congr (m' := unpackLE (unpackLE m a v.a) (a + w.bytes) v.b)
    fun i _ => congrFun (writePair_eq m a v) _]
  have h1 : packLE w (unpackLE (unpackLE m a v.a) (a + w.bytes) v.b) a = v.a := by
    rw [packLE_unpackLE_out (.inl (Nat.le_refl _)), packLE_unpackLE]
  simp only [readPair, h1, packLE_unpackLE]

theorem read_writePair_out {w : WordWidth} {m : Memory} {a b : Nat} {v : Pair w}
    (h : b < a ∨ a + 2 * w.bytes ≤ b) : (writePair m a v).read b = m.read b :=
  Memory.read_writeBytes_out (by simp; omega)

theorem read_writeQuad_out {w : WordWidth} {m : Memory} {a b : Nat} {v : Quad w}
    (h : b < a ∨ a + 4 * w.bytes ≤ b) : (writeQuad m a v).read b = m.read b :=
  Memory.read_writeBytes_out (by simp; omega)

theorem writeBytes_append (xs ys : List Byte) (m : Memory) (a b : Nat) :
    (m.writeBytes a (xs ++ ys)).read b = ((m.writeBytes a xs).writeBytes (a + xs.length) ys).read b := by
  simp only [Memory.read_writeBytes, List.length_append]
  by_cases h1 : a + xs.length ≤ b ∧ b < a + xs.length + ys.length
  · rw [if_pos (by omega), if_pos h1, List.getD_append_right _ _ _ _ (by omega)]
    congr 1
    omega
  · rw [if_neg h1]
    by_cases h2 : a ≤ b ∧ b < a + xs.length
    · rw [if_pos (by omega), if_pos h2, List.getD_append _ _ _ _ (by omega)]
    · rw [if_neg (by omega), if_neg h2]

theorem readQuad_congr {w : WordWidth} {m m' : Memory} {a : Nat}
    (h : ∀ i < 4 * w.bytes, m.read (a + i) = m'.read (a + i)) : readQuad w m a = readQuad w m' a := by
  have g : ∀ n < 4, packLE w m (a + n * w.bytes) = packLE w m' (a + n * w.bytes) := fun n hn =>
    packLE_congr fun i hi => by
      have h1 : n * w.bytes ≤ 3 * w.bytes := Nat.mul_le_mul_right _ (by omega)
      have := h (n * w.bytes + i) (by omega)
      rwa [← Nat.add_assoc] at this
  have g0 := g 0 (by omega)
  have g1 := g 1 (by omega)
  simp only [Nat.zero_mul, Nat.add_zero, Nat.one_mul] at g0 g1
  simp only [readQuad, Quad.mk.injEq]
  exact ⟨g0, g1, g 2 (by omega), g 3 (by omega)⟩

/-- A four-word block written to a buffer reads back (41_datapath.md R91). -/
theorem readQuad_writeQuad {w : WordWidth} (m : Memory) (a : Nat) (v : Quad w) :
    readQuad w (writeQuad m a v) a = v := by
  rw [readQuad_congr (m' := unpackLE (unpackLE (unpackLE (unpackLE m a v.a) (a + w.bytes) v.b)
    (a + 2 * w.bytes) v.c) (a + 3 * w.bytes) v.d)]
  · simp only [readQuad]
    have h1 : ∀ (m : Memory) (x : Word w) (i j : Nat), i < j →
        packLE w (unpackLE m (a + j * w.bytes) x) (a + i * w.bytes) = packLE w m (a + i * w.bytes) :=
      fun m x i j hij => packLE_unpackLE_out (.inl (by
        have := Nat.mul_le_mul_right w.bytes hij
        rw [Nat.succ_mul] at this
        omega))
    have e0 : a = a + 0 * w.bytes := by omega
    have e1 : a + w.bytes = a + 1 * w.bytes := by omega
    congr 1
    · rw [e1, e0]
      rw [show a + 0 * w.bytes + 1 * w.bytes = a + 1 * w.bytes by omega,
        show a + 0 * w.bytes + 2 * w.bytes = a + 2 * w.bytes by omega,
        show a + 0 * w.bytes + 3 * w.bytes = a + 3 * w.bytes by omega,
        h1 _ _ 0 3 (by omega), h1 _ _ 0 2 (by omega), h1 _ _ 0 1 (by omega), packLE_unpackLE]
    · rw [e1, h1 _ _ 1 3 (by omega), h1 _ _ 1 2 (by omega), packLE_unpackLE]
    · rw [h1 _ _ 2 3 (by omega), packLE_unpackLE]
    · rw [packLE_unpackLE]
  · intro i _
    simp only [writeQuad, unpackLE, writeBytes_append, length_wordBytes]
    rw [show a + w.bytes + w.bytes = a + 2 * w.bytes by omega,
      show a + 2 * w.bytes + w.bytes = a + 3 * w.bytes by omega]

/-! ## Bits and bytes of packed words -/

theorem testBit_fromLE (bs : List Byte) (i : Nat) :
    (fromLE bs).testBit i = (bs.getD (i / 8) 0).getLsbD (i % 8) := by
  rw [← fromLE_byte, BitVec.getLsbD_ofNat]
  have : i % 8 < 8 := Nat.mod_lt _ (by decide)
  simp only [this, decide_true, Bool.true_and]
  rw [show (256 : Nat) = 2 ^ 8 by norm_num, ← pow_mul, Nat.testBit_div_two_pow]
  congr 1
  omega

/-- Bit i of a packed word is a bit of byte i/8 (41_datapath.md R90). -/
theorem getLsbD_packLE {w : WordWidth} {m : Memory} {a i : Nat} (hi : i < w.bits) :
    (packLE w m a).getLsbD i = (m.read (a + i / 8)).getLsbD (i % 8) := by
  unfold packLE Memory.readLE
  rw [BitVec.getLsbD_ofNat, testBit_fromLE]
  have h := w.bits_eq
  rw [Memory.getD_readBytes (by omega)]
  simp [hi]

theorem getLsbD_toLE {n v i j : Nat} (h : i < n) (hj : j < 8) :
    ((toLE n v).getD i 0).getLsbD j = v.testBit (8 * i + j) := by
  rw [getD_toLE h, BitVec.getLsbD_ofNat, show (256 : Nat) = 2 ^ 8 by norm_num, ← pow_mul,
    Nat.testBit_div_two_pow]
  simp only [hj, decide_true, Bool.true_and]
  congr 1
  omega

/-- Byte i of a word (41_datapath.md R91). -/
theorem getD_wordBytes {w : WordWidth} (x : Word w) {i : Nat} (hi : i < w.bytes) :
    (wordBytes x).getD i 0 = x.extractLsb' (8 * i) 8 := by
  unfold wordBytes
  rw [getD_toLE hi]
  apply BitVec.eq_of_toNat_eq
  rw [BitVec.extractLsb'_toNat, BitVec.toNat_ofNat, Nat.shiftRight_eq_div_pow,
    show (256 : Nat) = 2 ^ 8 by norm_num, ← pow_mul]

theorem read_unpackLE_in {w : WordWidth} {m : Memory} {a i : Nat} {x : Word w} (hi : i < w.bytes) :
    (unpackLE m a x).read (a + i) = x.extractLsb' (8 * i) 8 := by
  unfold unpackLE
  rw [Memory.read_writeBytes_in (by simpa using hi), getD_wordBytes x hi]

/-- A packed word's byte i is the byte it was packed from. -/
theorem extractLsb'_packLE {w : WordWidth} {m : Memory} {a i : Nat} (hi : i < w.bytes) :
    (packLE w m a).extractLsb' (8 * i) 8 = m.read (a + i) := by
  apply BitVec.eq_of_getLsbD_eq
  intro j hj
  have hb := w.bits_eq
  rw [BitVec.getLsbD_extractLsb', getLsbD_packLE (by omega), show (8 * i + j) / 8 = i by omega,
    show (8 * i + j) % 8 = j by omega]
  simp [hj]

/-- Words whose bytes agree are equal. -/
theorem eq_of_bytes {w : WordWidth} {x y : Word w}
    (h : ∀ i < w.bytes, x.extractLsb' (8 * i) 8 = y.extractLsb' (8 * i) 8) : x = y := by
  apply BitVec.eq_of_getLsbD_eq
  intro i hi
  have hb := w.bits_eq
  have e := congrArg (fun b : Byte => b.getLsbD (i % 8)) (h (i / 8) (by omega))
  simp only [BitVec.getLsbD_extractLsb'] at e
  have h8 : i % 8 < 8 := Nat.mod_lt _ (by decide)
  rw [show 8 * (i / 8) + i % 8 = i by omega] at e
  simpa [h8] using e

/-- Two memories hold the same word exactly when they hold the same bytes. -/
theorem read_of_packLE_eq {w : WordWidth} {m m' : Memory} {a i : Nat}
    (h : packLE w m a = packLE w m' a) (hi : i < w.bytes) : m.read (a + i) = m'.read (a + i) := by
  rw [← extractLsb'_packLE hi, h, extractLsb'_packLE hi]

/-! ## The parameter predicates -/

theorem setupValid_iff (w : WordWidth) (p : Param) :
    setupValid w p = true ↔ p.w = w.bits ∧ p.r ≤ 255 ∧ p.r % 4 = 0 ∧ p.b ≤ 255 := by
  simp only [setupValid, Bool.and_eq_true, beq_iff_eq, decide_eq_true_eq, and_assoc]

theorem cryptInContract_iff (w : WordWidth) (p : Param) :
    cryptInContract w p = true ↔ p.w = w.bits ∧ p.r ≤ 255 ∧ p.r % 4 = 0 := by
  simp only [cryptInContract, Bool.and_eq_true, beq_iff_eq, decide_eq_true_eq, and_assoc]

/-! ## Key words -/

theorem length_keyBytes (m : Memory) (b i n : Nat) : (keyBytes m b i n).length = n := by
  induction n generalizing i with
  | zero => rfl
  | succ n ih => simp [keyBytes, ih]

theorem getD_keyBytes {m : Memory} {b i n j : Nat} (h : j < n) :
    (keyBytes m b i n).getD j 0 = keyByteBelow m b (i + j) := by
  induction n generalizing i j with
  | zero => omega
  | succ n ih =>
    cases j with
    | zero => simp [keyBytes]
    | succ j =>
      rw [keyBytes, List.getD_cons_succ, ih (by omega)]
      congr 1
      omega

theorem keyBytes_congr {m m' : Memory} {b i n : Nat}
    (h : ∀ i < b, m.read (keyBase + i) = m'.read (keyBase + i)) :
    keyBytes m b i n = keyBytes m' b i n := by
  induction n generalizing i with
  | zero => rfl
  | succ n ih =>
    simp only [keyBytes, ih, keyByteBelow]
    split
    · rename_i hb
      rw [h i hb]
    · rfl

/-- A key word depends on the key bytes below b alone (41_datapath.md R92). -/
theorem keyWord_congr {w : WordWidth} {m m' : Memory} {b : Nat} (k : Nat)
    (h : ∀ i < b, m.read (keyBase + i) = m'.read (keyBase + i)) :
    keyWord w m b k = keyWord w m' b k := by
  unfold keyWord
  rw [keyBytes_congr h]

end Machine
end Sys2Proof
end

