-- ==== Sys2Proof/Laws/HostPort.lean ====
section
/-! SUPPORT. The address map in lemmas (20_memory.md R44, 40_host_port.md R76), byte lanes (R75), and what
one transaction can do (R77 to R79). -/

namespace Sys2Proof.Machine

/-! ## Regions -/

theorem region_cfg (w : WordWidth) : region w 0 = .cfg := by cases w <;> rfl
theorem region_ctrl (w : WordWidth) : region w 1 = .ctrl := by cases w <;> rfl
theorem region_param (w : WordWidth) : region w 2 = .param := by cases w <;> rfl
theorem region_cmd (w : WordWidth) : region w 3 = .cmd := by cases w <;> rfl
theorem region_status (w : WordWidth) : region w 4 = .status := by cases w <;> rfl

/-- The byte windows by address. -/
theorem region_byteWindow {w : WordWidth} {q : BitVec 12}
    (h : (0x100 ≤ 4 * q.toNat ∧ 4 * q.toNat ≤ 0x1FC) ∨ (0x200 ≤ 4 * q.toNat ∧ 4 * q.toNat ≤ 0x27C)) :
    (∃ n, region w q = .keyW n ∧ 4 * q.toNat = keyBase + 4 * n ∧ n < 64) ∨
    (∃ n, region w q = .binW n ∧ 4 * q.toNat = binBase + 4 * n ∧ n < 16) ∨
    (∃ n, region w q = .boutW n ∧ 4 * q.toNat = boutBase + 4 * n ∧ n < 16) := by
  unfold region regionAt
  rcases Nat.lt_or_ge (4 * q.toNat) 0x200 with h1 | h1
  · left
    refine ⟨(4 * q.toNat - 0x100) / 4, ?_, by unfold keyBase; omega, by omega⟩
    repeat rw [if_neg (by omega)]
    rw [if_pos (by omega)]
  · rcases Nat.lt_or_ge (4 * q.toNat) 0x240 with h2 | h2
    · right; left
      refine ⟨(4 * q.toNat - 0x200) / 4, ?_, by unfold binBase; omega, by omega⟩
      repeat rw [if_neg (by omega)]
      rw [if_pos (by omega)]
    · right; right
      refine ⟨(4 * q.toNat - 0x240) / 4, ?_, by unfold boutBase; omega, by omega⟩
      repeat rw [if_neg (by omega)]
      rw [if_pos (by omega)]

/-- The S window by address (20_memory.md R50). -/
theorem region_sWindow {w : WordWidth} {q : BitVec 12} {n : Nat} (h : 4 * q.toNat = sBase + 4 * n) :
    region w q = if n / w.nsw < smax then .sWin n else .rsvd := by
  unfold region regionAt
  have hq := q.isLt
  unfold sBase at h
  have e : (4 * q.toNat - 0x2000) / 4 = n := by omega
  repeat rw [if_neg (by omega)]
  rw [e]
  by_cases hn : n / w.nsw < smax
  · rw [if_pos hn, if_pos ⟨by omega, by omega, hn⟩]
  · rw [if_neg hn, if_neg (fun hc => hn hc.2.2)]

/-- What a region says about the address. -/
theorem region_cases (w : WordWidth) (q : BitVec 12) :
    (q = 0 ∧ region w q = .cfg) ∨ (q = 1 ∧ region w q = .ctrl) ∨ (q = 2 ∧ region w q = .param) ∨
    (q = 3 ∧ region w q = .cmd) ∨ (q = 4 ∧ region w q = .status) ∨
    (∃ n, region w q = .keyW n ∧ 4 * q.toNat = keyBase + 4 * n ∧ n < 64) ∨
    (∃ n, region w q = .binW n ∧ 4 * q.toNat = binBase + 4 * n ∧ n < 16) ∨
    (∃ n, region w q = .boutW n ∧ 4 * q.toNat = boutBase + 4 * n ∧ n < 16) ∨
    (∃ n, region w q = .sWin n ∧ 4 * q.toNat = sBase + 4 * n ∧ n / w.nsw < smax) ∨
    region w q = .rsvd := by
  have hq := q.isLt
  have of_nat : ∀ k : Nat, k < 4096 → q.toNat = k → q = BitVec.ofNat 12 k := by
    intro k hk h
    apply BitVec.eq_of_toNat_eq
    rw [h, BitVec.toNat_ofNat, Nat.mod_eq_of_lt hk]
  by_cases h5 : q.toNat < 5
  · have : q.toNat = 0 ∨ q.toNat = 1 ∨ q.toNat = 2 ∨ q.toNat = 3 ∨ q.toNat = 4 := by omega
    rcases this with h | h | h | h | h
    · exact .inl ⟨of_nat 0 (by omega) h, of_nat 0 (by omega) h ▸ region_cfg w⟩
    · exact .inr (.inl ⟨of_nat 1 (by omega) h, of_nat 1 (by omega) h ▸ region_ctrl w⟩)
    · exact .inr (.inr (.inl ⟨of_nat 2 (by omega) h, of_nat 2 (by omega) h ▸ region_param w⟩))
    · exact .inr (.inr (.inr (.inl ⟨of_nat 3 (by omega) h, of_nat 3 (by omega) h ▸ region_cmd w⟩)))
    · exact .inr (.inr (.inr (.inr (.inl ⟨of_nat 4 (by omega) h, of_nat 4 (by omega) h ▸ region_status w⟩))))
  · iterate 5 right
    by_cases hb : (0x100 ≤ 4 * q.toNat ∧ 4 * q.toNat ≤ 0x1FC) ∨ (0x200 ≤ 4 * q.toNat ∧ 4 * q.toNat ≤ 0x27C)
    · rcases region_byteWindow (w := w) hb with h | h | h
      · exact .inl h
      · exact .inr (.inl h)
      · exact .inr (.inr (.inl h))
    · iterate 3 right
      by_cases hs : 0x2000 ≤ 4 * q.toNat
      · have e : 4 * q.toNat = sBase + 4 * ((4 * q.toNat - 0x2000) / 4) := by unfold sBase; omega
        have hr := region_sWindow (w := w) e
        by_cases hn : (4 * q.toNat - 0x2000) / 4 / w.nsw < smax
        · rw [if_pos hn] at hr
          exact .inl ⟨_, hr, e, hn⟩
        · rw [if_neg hn] at hr
          exact .inr hr
      · right
        unfold region regionAt
        repeat rw [if_neg (by omega)]

/-- Everything between the registers, the byte windows and the mapped part of the S window is reserved
(20_memory.md R45). -/
theorem region_rsvd {w : WordWidth} {q : BitVec 12}
    (h : (0x14 ≤ 4 * q.toNat ∧ 4 * q.toNat ≤ 0xFF) ∨ (0x280 ≤ 4 * q.toNat ∧ 4 * q.toNat ≤ 0x1FFF) ∨
      (0x2000 ≤ 4 * q.toNat ∧ smax ≤ (4 * q.toNat - 0x2000) / 4 / w.nsw)) : region w q = .rsvd := by
  unfold region regionAt
  have hq := q.isLt
  unfold smax at *
  rcases h with h | h | h <;> (repeat rw [if_neg (by omega)])

/-! ## One transaction -/

theorem busRead_eq {s : State} {q : BitVec 12} (h : s.rst = false)
    (hg : s.status.busy = false ∨ (region s.width q).readGuarded = false) :
    busRead q s = { s with rdata := readRegion s (region s.width q) } := by
  unfold busRead
  rcases hg with hg | hg <;> simp [h, hg]

theorem busWrite_eq {s : State} {q : BitVec 12} {d : BusWord} (h : s.rst = false)
    (hg : s.status.busy = false ∨ (region s.width q).writeGuarded = false) :
    busWrite q d s = writeRegion s d (region s.width q) := by
  unfold busWrite
  rcases hg with hg | hg <;> simp [h, hg]

theorem busRead_collides {s : State} {q : BitVec 12} (h : s.rst = false) (hb : s.status.busy = true)
    (hg : (region s.width q).readGuarded = true) : busRead q s = { s.setColl with rdata := 0 } := by
  unfold busRead
  simp [h, hb, hg]

theorem busWrite_collides {s : State} {q : BitVec 12} {d : BusWord} (h : s.rst = false)
    (hb : s.status.busy = true) (hg : (region s.width q).writeGuarded = true) :
    busWrite q d s = s.setColl := by
  unfold busWrite
  simp [h, hb, hg]

/-- A read changes RDATA and, when it collides, COLL (40_host_port.md R78). -/
theorem busRead_cases (q : BitVec 12) (s : State) :
    (∃ v, busRead q s = { s with rdata := v }) ∨
    (s.rst = false ∧ s.status.busy = true ∧ (region s.width q).readGuarded = true ∧
      busRead q s = { s.setColl with rdata := 0 }) := by
  unfold busRead
  cases h : s.rst with
  | true => exact .inl ⟨0, by simp⟩
  | false =>
    cases hg : s.status.busy && (region s.width q).readGuarded with
    | false => exact .inl ⟨readRegion s (region s.width q), by simp⟩
    | true =>
      simp only [Bool.and_eq_true] at hg
      exact .inr ⟨rfl, hg.1, hg.2, by simp⟩

/-- A write is ignored (rst = 1), dropped with COLL, or performed (40_host_port.md R77, R79). -/
theorem busWrite_cases (q : BitVec 12) (d : BusWord) (s : State) :
    (s.rst = true ∧ busWrite q d s = s) ∨
    (s.rst = false ∧ s.status.busy = true ∧ (region s.width q).writeGuarded = true ∧
      busWrite q d s = s.setColl) ∨
    (s.rst = false ∧ (s.status.busy = false ∨ (region s.width q).writeGuarded = false) ∧
      busWrite q d s = writeRegion s d (region s.width q)) := by
  unfold busWrite
  cases h : s.rst with
  | true => exact .inl ⟨rfl, by simp⟩
  | false =>
    cases hg : s.status.busy && (region s.width q).writeGuarded with
    | false =>
      simp only [Bool.and_eq_false_iff] at hg
      exact .inr (.inr ⟨rfl, hg, by simp⟩)
    | true =>
      simp only [Bool.and_eq_true] at hg
      exact .inr (.inl ⟨rfl, hg.1, hg.2, by simp⟩)

/-- What acceptance can do (42_control.md R96 to R98). -/
theorem accept_cases (d : BusWord) (s : State) :
    ((∃ e, decodeCommand d = .error e) ∧ accept d s = s.clearForAccept.setIllegal) ∨
    (∃ i, decodeCommand d = .ok i ∧ engineOp i = none ∧ accept d s = s.clearForAccept.setDone) ∨
    (∃ i op, decodeCommand d = .ok i ∧ engineOp i = some op ∧
      accept d s = s.clearForAccept.latch op) := by
  unfold accept
  split
  · rename_i e he
    exact .inl ⟨⟨e, he⟩, rfl⟩
  · rename_i i hi
    split
    · rename_i hn
      exact .inr (.inl ⟨i, hi, hn, rfl⟩)
    · rename_i op ho
      exact .inr (.inr ⟨i, op, hi, ho, rfl⟩)

/-- Acceptance changes STATUS, OPL and the phase only, and keeps COLL (42_control.md R96). -/
theorem accept_frame (d : BusWord) (s : State) :
    (accept d s).width = s.width ∧ (accept d s).ctrl = s.ctrl ∧ (accept d s).param = s.param ∧
    (accept d s).mem = s.mem ∧ (accept d s).rst = s.rst ∧ (accept d s).rdata = s.rdata ∧
    (accept d s).inputs = s.inputs ∧ (accept d s).draws = s.draws ∧
    (accept d s).status.coll = s.status.coll := by
  rcases accept_cases d s with ⟨-, h⟩ | ⟨i, -, -, h⟩ | ⟨i, op, -, -, h⟩ <;> rw [h] <;> simp

/-- What no write changes. -/
theorem writeRegion_frame (s : State) (d : BusWord) (r : Region) :
    (writeRegion s d r).width = s.width ∧ (writeRegion s d r).rst = s.rst ∧
    (writeRegion s d r).rdata = s.rdata ∧ (writeRegion s d r).inputs = s.inputs ∧
    (writeRegion s d r).draws = s.draws := by
  cases r
  case cmd =>
    obtain ⟨h1, -, -, -, h5, h6, h7, h8, -⟩ := accept_frame d s
    exact ⟨h1, h5, h6, h7, h8⟩
  all_goals exact ⟨rfl, rfl, rfl, rfl, rfl⟩

/-- Only a CMD or STATUS write changes STATUS. -/
theorem writeRegion_status {s : State} {d : BusWord} {r : Region} (h1 : r ≠ .cmd) (h2 : r ≠ .status) :
    (writeRegion s d r).status = s.status := by
  cases r <;> first | rfl | contradiction

/-- Only a CMD write changes OPL and the hidden registers. -/
theorem writeRegion_engine {s : State} {d : BusWord} {r : Region} (h : r ≠ .cmd) :
    (writeRegion s d r).opl = s.opl ∧ (writeRegion s d r).hidden = s.hidden := by
  cases r <;> first | exact ⟨rfl, rfl⟩ | contradiction

/-- Only a CTRL write changes CTRL. -/
theorem writeRegion_ctrl {s : State} {d : BusWord} {r : Region} (h : r ≠ .ctrl) :
    (writeRegion s d r).ctrl = s.ctrl := by
  cases r
  case cmd => exact (accept_frame d s).2.1
  all_goals first | rfl | contradiction

/-- Only a PARAM write changes PARAM. -/
theorem writeRegion_param {s : State} {d : BusWord} {r : Region} (h : r ≠ .param) :
    (writeRegion s d r).param = s.param := by
  cases r
  case cmd => exact (accept_frame d s).2.2.1
  all_goals first | rfl | contradiction

/-- A collision leaves COLL set; any other write but one of STATUS keeps it. -/
theorem writeRegion_coll {s : State} {d : BusWord} {r : Region} (h : r ≠ .status) :
    (writeRegion s d r).status.coll = s.status.coll := by
  by_cases hc : r = .cmd
  · subst hc
    exact (accept_frame d s).2.2.2.2.2.2.2.2
  · rw [writeRegion_status hc h]

/-! ## Byte lanes -/

theorem toNat_append {m n : Nat} (x : BitVec m) (y : BitVec n) :
    (x ++ y).toNat = x.toNat * 2 ^ n + y.toNat := by
  rw [BitVec.toNat_append, ← Nat.shiftLeft_add_eq_or_of_lt y.isLt, Nat.shiftLeft_eq]

/-- Byte k of `BytesOf` (40_host_port.md R75). -/
theorem getD_bytesOf (d : BusWord) (hbe : Bool) {k : Nat} (hk : k < 4) :
    (bytesOf d hbe).getD k 0 = d.extractLsb' (if hbe then 24 - 8 * k else 8 * k) 8 := by
  have : k = 0 ∨ k = 1 ∨ k = 2 ∨ k = 3 := by omega
  cases hbe <;> rcases this with rfl | rfl | rfl | rfl <;> rfl

/-- The byte lane of byte k in `DataOf` (40_host_port.md R75). -/
theorem extractLsb'_dataOf (y : Nat → Byte) (hbe : Bool) {k : Nat} (hk : k < 4) :
    (dataOf (y 0) (y 1) (y 2) (y 3) hbe).extractLsb' (if hbe then 24 - 8 * k else 8 * k) 8 = y k := by
  apply BitVec.eq_of_toNat_eq
  have hk4 : k = 0 ∨ k = 1 ∨ k = 2 ∨ k = 3 := by omega
  have h0 := (y 0).isLt
  have h1 := (y 1).isLt
  have h2 := (y 2).isLt
  have h3 := (y 3).isLt
  have e : ∀ h, (dataOf (y 0) (y 1) (y 2) (y 3) h).toNat =
      if h then (((y 0).toNat * 256 + (y 1).toNat) * 256 + (y 2).toNat) * 256 + (y 3).toNat
      else (((y 3).toNat * 256 + (y 2).toNat) * 256 + (y 1).toNat) * 256 + (y 0).toNat := by
    intro h
    cases h
    · show (y 3 ++ y 2 ++ y 1 ++ y 0).toNat =
        (((y 3).toNat * 256 + (y 2).toNat) * 256 + (y 1).toNat) * 256 + (y 0).toNat
      simp only [toNat_append]
      rfl
    · show (y 0 ++ y 1 ++ y 2 ++ y 3).toNat =
        (((y 0).toNat * 256 + (y 1).toNat) * 256 + (y 2).toNat) * 256 + (y 3).toNat
      simp only [toNat_append]
      rfl
  rw [BitVec.extractLsb'_toNat, e, Nat.shiftRight_eq_div_pow]
  cases hbe <;> rcases hk4 with rfl | rfl | rfl | rfl <;> simp <;> omega

end Sys2Proof.Machine
end

