-- ==== Sys2Proof/Laws/PerInstr.lean ====
section
/-! SUPPORT. Facts stated per instruction: the word of an instruction stands in its row of
spec/opcode_table.json, by the row's length, mask and match value. -/

namespace Sys2Proof.Laws.MatchesItsRow

/-- The word of `i` has the row's length; a command word is the row's match value, and a transaction word
has the fields of the row in their places, with WE = 0 for RD and 1 for WR (30_encoding.md R65, R70). -/
def Statement (i : Instr) : Prop :=
  match i with
  | .nop => encode i = (32, 0x0)
  | .setup5 => encode i = (32, 0x4)
  | .setup6 => encode i = (32, 0x6)
  | .enc5 => encode i = (32, 0x8)
  | .dec5 => encode i = (32, 0x9)
  | .enc6 => encode i = (32, 0xA)
  | .dec6 => encode i = (32, 0xB)
  | .rd q data => encode i = (45, q.toNat * 2 ^ 32 + data.toNat) ∧ (encode i).2 < 2 ^ 44
  | .wr q data => encode i = (45, 2 ^ 44 + q.toNat * 2 ^ 32 + data.toNat) ∧ (encode i).2 < 2 ^ 45

/-- A transaction word as a number. -/
theorem transactionWord_toNat (we : BitVec 1) (q : BitVec 12) (data : BusWord) :
    (transactionWord we q data).toNat = we.toNat * 2 ^ 44 + q.toNat * 2 ^ 32 + data.toNat := by
  have hq : q.toNat < 2 ^ 12 := q.isLt
  have hd : data.toNat < 2 ^ 32 := data.isLt
  rw [transactionWord, BitVec.toNat_append, BitVec.toNat_append,
    ← Nat.shiftLeft_add_eq_or_of_lt hd, ← Nat.shiftLeft_add_eq_or_of_lt hq,
    Nat.shiftLeft_eq, Nat.shiftLeft_eq]
  omega

theorem nop : Statement .nop := rfl
theorem setup5 : Statement .setup5 := rfl
theorem setup6 : Statement .setup6 := rfl
theorem enc5 : Statement .enc5 := rfl
theorem dec5 : Statement .dec5 := rfl
theorem enc6 : Statement .enc6 := rfl
theorem dec6 : Statement .dec6 := rfl

theorem rd (q : BitVec 12) (data : BusWord) : Statement (.rd q data) := by
  have h : (encode (.rd q data)).2 = q.toNat * 2 ^ 32 + data.toNat := by
    rw [encode, transactionWord_toNat]
    simp
  refine ⟨Prod.ext rfl h, ?_⟩
  have hq : q.toNat < 2 ^ 12 := q.isLt
  have hd : data.toNat < 2 ^ 32 := data.isLt
  rw [h]
  omega

theorem wr (q : BitVec 12) (data : BusWord) : Statement (.wr q data) := by
  have h : (encode (.wr q data)).2 = 2 ^ 44 + q.toNat * 2 ^ 32 + data.toNat := by
    rw [encode, transactionWord_toNat]
    simp
  refine ⟨Prod.ext rfl h, ?_⟩
  have hq : q.toNat < 2 ^ 12 := q.isLt
  have hd : data.toNat < 2 ^ 32 := data.isLt
  rw [h]
  omega

end Sys2Proof.Laws.MatchesItsRow
end

