-- ==== Sys2Proof/Laws/Step.lean ====
section
/-! SUPPORT. What one instruction and one step can do, said once: later proofs split on these cases and
never unfold `step`. -/

namespace Sys2Proof.Machine

/-! ## Decoding -/

/-- A transaction word's fields come back (30_encoding.md R70). -/
theorem decodeTransaction_append (b : Bool) (q : BitVec 12) (d : BusWord) :
    decodeTransaction (BitVec.ofBool b ++ q ++ d : BitVec 45) = if b then .wr q d else .rd q d := by
  have h1 : (BitVec.ofBool b ++ q ++ d : BitVec 45).getLsbD 44 = b := by
    simp only [BitVec.getLsbD_append, BitVec.getLsbD_ofBool]
    simp
  have h2 : (BitVec.ofBool b ++ q ++ d : BitVec 45).extractLsb' 32 12 = q := by
    apply BitVec.eq_of_getLsbD_eq
    intro i hi
    simp only [BitVec.getLsbD_append, BitVec.getLsbD_extractLsb', BitVec.getLsbD_ofBool]
    have h3 : 32 + i - 32 = i := by omega
    simp [hi, h3]
  have h3 : (BitVec.ofBool b ++ q ++ d : BitVec 45).extractLsb' 0 32 = d := by
    apply BitVec.eq_of_getLsbD_eq
    intro i hi
    simp only [BitVec.getLsbD_append, BitVec.getLsbD_extractLsb', BitVec.getLsbD_ofBool]
    simp [hi]
  unfold decodeTransaction
  rw [h1, h2, h3]

theorem decodeWord_transaction (t : BitVec 45) : decodeWord 45 t.toNat = .ok (decodeTransaction t) := by
  unfold decodeWord
  rw [if_neg (by decide), if_pos rfl, if_pos t.isLt]
  simp

theorem decodeTransaction_cases (t : BitVec 45) :
    (∃ q d, decodeTransaction t = .rd q d) ∨ (∃ q d, decodeTransaction t = .wr q d) := by
  unfold decodeTransaction
  split
  · exact .inr ⟨_, _, rfl⟩
  · exact .inl ⟨_, _, rfl⟩

/-- The word of each engine command decodes to it, and acceptance latches it. -/
theorem accept_engine {d : BusWord} {i : Instr} {op : EngineOp} (hd : decodeCommand d = .ok i)
    (ho : engineOp i = some op) (s : State) : accept d s = s.clearForAccept.latch op := by
  unfold accept
  rw [hd]
  show (match engineOp i with
    | none => s.clearForAccept.setDone
    | some op => s.clearForAccept.latch op) = _
  rw [ho]

/-! ## Outcomes -/

/-- The completion step of a command before BUSY and DONE change (42_control.md R99). -/
def runOp : EngineOp → State → State
  | .setup5, s => keySchedule 2 s
  | .setup6, s => keySchedule 4 s
  | .enc5, s => runRc5Encrypt s
  | .dec5, s => runRc5Decrypt s
  | .enc6, s => runRc6Encrypt s
  | .dec6, s => runRc6Decrypt s

theorem exec_op (op : EngineOp) (s : State) : exec op.instr s = .next (runOp op s).complete := by
  cases op <;> rfl

/-- Every instruction answers with a next state. -/
theorem exec_next (i : Instr) (s : State) : ∃ t, exec i s = .next t := by
  cases i with
  | nop =>
    simp only [exec, execNop]
    split
    · exact ⟨_, rfl⟩
    · split <;> exact ⟨_, rfl⟩
  | _ => exact ⟨_, rfl⟩

/-- What the ENGINE's turn can do. -/
theorem engineTurn_cases (s : State) :
    (s.rst = false ∧ s.status.busy = true ∧ ∃ op, s.opl = some op ∧
      engineTurn s = .next (runOp op s).complete) ∨
    (s.rst = false ∧ s.status.busy = true ∧ s.opl = none ∧ engineTurn s = .next s.complete) ∨
    ((s.rst = true ∨ s.status.busy = false) ∧ engineTurn s = .next s) := by
  unfold engineTurn
  cases hb : s.status.busy with
  | false => exact .inr (.inr ⟨.inr rfl, by simp⟩)
  | true =>
    cases hr : s.rst with
    | true => exact .inr (.inr ⟨.inl rfl, by simp⟩)
    | false =>
      cases ho : s.opl with
      | none => exact .inr (.inl ⟨rfl, rfl, rfl, by simp⟩)
      | some op => exact .inl ⟨rfl, rfl, op, rfl, by simp [exec_op]⟩

/-- What one step that answers with a next state can be; `u` is the state with the input taken. -/
theorem step_cases {s t : State} (h : step s = .next t) :
    (s.inputs = [] ∧ engineTurn s = .next t) ∨
    ∃ x rest, s.inputs = x :: rest ∧
      ((x = .engine ∧ engineTurn { s with inputs := rest } = .next t) ∨
      (x = .rst true ∧ t = applyReset { s with inputs := rest }) ∨
      (x = .rst false ∧ t = releaseReset { s with inputs := rest }) ∨
      (∃ w q d, x = .transaction w ∧ decodeTransaction w = .rd q d ∧
        t = busRead q { s with inputs := rest }) ∨
      (∃ w q d, x = .transaction w ∧ decodeTransaction w = .wr q d ∧
        t = busWrite q d { s with inputs := rest })) := by
  unfold step at h
  split at h
  · rename_i hi
    exact .inl ⟨hi, h⟩
  · rename_i x rest hi
    refine .inr ⟨x, rest, hi, ?_⟩
    cases x with
    | engine => exact .inl ⟨rfl, h⟩
    | rst l =>
      cases l with
      | true =>
        cases h
        exact .inr (.inl ⟨rfl, rfl⟩)
      | false =>
        cases h
        exact .inr (.inr (.inl ⟨rfl, rfl⟩))
    | transaction w =>
      simp only [stepInput] at h
      rcases decodeTransaction_cases w with ⟨q, d, hw⟩ | ⟨q, d, hw⟩
      · rw [hw] at h
        cases h
        exact .inr (.inr (.inr (.inl ⟨w, q, d, rfl, hw, rfl⟩)))
      · rw [hw] at h
        cases h
        exact .inr (.inr (.inr (.inr ⟨w, q, d, rfl, hw, rfl⟩)))
    | narrow z a w d => cases h
    | otherSignals => cases h

/-! ## Frames of the completion step -/

/-- What a setup leaves alone. -/
theorem keySchedule_frame (x : Nat) (s : State) :
    (keySchedule x s).width = s.width ∧ (keySchedule x s).ctrl = s.ctrl ∧
    (keySchedule x s).param = s.param ∧ (keySchedule x s).opl = s.opl ∧
    (keySchedule x s).rst = s.rst ∧ (keySchedule x s).rdata = s.rdata ∧
    (keySchedule x s).inputs = s.inputs ∧ (keySchedule x s).draws = s.draws ∧
    (keySchedule x s).hidden.phase = s.hidden.phase ∧
    (keySchedule x s).status = { s.status with err := s.status.err || !setupValid s.width s.param } := by
  unfold keySchedule
  cases h : setupValid s.width s.param
  · simp
  · simp [Hidden.afterSetup]

/-- What a crypt command leaves alone, in contract or not. -/
theorem runOp_frame (op : EngineOp) (s : State) :
    (runOp op s).width = s.width ∧ (runOp op s).ctrl = s.ctrl ∧ (runOp op s).param = s.param ∧
    (runOp op s).opl = s.opl ∧ (runOp op s).rst = s.rst ∧ (runOp op s).rdata = s.rdata ∧
    (runOp op s).inputs = s.inputs ∧ (runOp op s).hidden.phase = s.hidden.phase ∧
    (runOp op s).status.busy = s.status.busy ∧ (runOp op s).status.done = s.status.done ∧
    (runOp op s).status.ill = s.status.ill ∧ (runOp op s).status.coll = s.status.coll := by
  cases op with
  | setup5 =>
    obtain ⟨h1, h2, h3, h4, h5, h6, h7, -, h9, h10⟩ := keySchedule_frame 2 s
    exact ⟨h1, h2, h3, h4, h5, h6, h7, h9, by simp [runOp, h10]⟩
  | setup6 =>
    obtain ⟨h1, h2, h3, h4, h5, h6, h7, -, h9, h10⟩ := keySchedule_frame 4 s
    exact ⟨h1, h2, h3, h4, h5, h6, h7, h9, by simp [runOp, h10]⟩
  | enc5 =>
    simp only [runOp, runRc5Encrypt]
    split <;> simp [Hidden.afterPair]
  | dec5 =>
    simp only [runOp, runRc5Decrypt]
    split <;> simp [Hidden.afterPair]
  | enc6 =>
    simp only [runOp, runRc6Encrypt]
    split <;> simp [Hidden.afterQuad]
  | dec6 =>
    simp only [runOp, runRc6Decrypt]
    split <;> simp [Hidden.afterQuad]

end Sys2Proof.Machine
end

