-- ==== Sys2Proof/Tests/Slice0.lean ====
section
/-! SUPPORT. The model's own tests. Expected values are those of spec/95_test_vectors.md and of the encoding
tables of 30_encoding.md. The second half gives, for each obligation with hypotheses, a state that meets
them; a witness is named after its obligation. -/

namespace Sys2Proof.Tests

open Sys2Proof.Machine Sys2Proof.Spec

/-! ## Helpers -/

/-- Known bytes from address `a` up, one every `d` addresses. -/
def cells (d a : Nat) : List Byte → Memory
  | [] => []
  | b :: bs => (a, b) :: cells d (a + d) bs

/-- An idle instance after reset with PARAM = (W, r, b) and the given memory. -/
def ready (w : WordWidth) (r b : Nat) (m : Memory) : State :=
  { State.afterReset w with
    param := { pw := BitVec.ofNat 8 w.bits, pr := BitVec.ofNat 12 r, pb := BitVec.ofNat 12 b }
    mem := m }

/-- The same with a command in flight. -/
def busy (op : EngineOp) (s : State) : State := s.latch op

/-- A value of the next state. -/
def after {α : Type} (o : Host.Outcome State Fault Refusal) (f : State → α) : Option α :=
  match o with
  | .next t => some (f t)
  | .fault _ => none
  | .refused _ => none

/-- The state reached, or the reset state where there is none. -/
def nextOf (o : Host.Outcome State Fault Refusal) : State := (after o id).getD State.reset

/-- The first `n` entries of S, as numbers. -/
def entries (n : Nat) (s : State) : List Nat := (List.range n).map fun k => (sEntry s.width s.mem k).toNat

/-- The first `n` bytes of BOUT. -/
def bout (n : Nat) (s : State) : List Byte := s.mem.readBytes boutBase n

/-- STATUS as a bus word, from its five bits. -/
def withStatus (b d e i c : Bool) (s : State) : State :=
  { s with status := { busy := b, done := d, err := e, ill := i, coll := c } }

/-! ## Well-formedness and decoding -/

theorem test_rd_with_data_is_ill_formed : (Instr.rd 0x004 1).wellFormed = false := by decide
theorem test_rd_without_data_is_well_formed : (Instr.rd 0xFFF 0).wellFormed = true := by decide

/-- Command words bit by bit: RSV, CLS, VAR, DIR (30_encoding.md R64, R65). -/
theorem test_decode_command_words :
    decodeTableWord 32 0b0000_0000_0000_0000_0000_0000_0000_00_0_0 = some .nop ∧
    decodeTableWord 32 0b0000_0000_0000_0000_0000_0000_0000_01_0_0 = some .setup5 ∧
    decodeTableWord 32 0b0000_0000_0000_0000_0000_0000_0000_01_1_0 = some .setup6 ∧
    decodeTableWord 32 0b0000_0000_0000_0000_0000_0000_0000_10_0_0 = some .enc5 ∧
    decodeTableWord 32 0b0000_0000_0000_0000_0000_0000_0000_10_0_1 = some .dec5 ∧
    decodeTableWord 32 0b0000_0000_0000_0000_0000_0000_0000_10_1_0 = some .enc6 ∧
    decodeTableWord 32 0b0000_0000_0000_0000_0000_0000_0000_10_1_1 = some .dec6 := by decide

/-- Illegal words of 95_test_vectors.md section 7.1, each rejected by name. -/
theorem test_decode_illegal_words :
    decodeWord 32 0x3 = .error .unlistedOpcode ∧ decodeWord 32 0x5 = .error .unlistedOpcode ∧
    decodeWord 32 0xF = .error .unlistedOpcode ∧ decodeWord 32 0x14 = .error .reservedBitsSet ∧
    decodeWord 32 0x80000004 = .error .reservedBitsSet ∧ decodeWord 32 (2 ^ 32) = .error .tooWide ∧
    decodeWord 16 0 = .error .noSuchFormat := by decide

/-- Transaction words of program P1: WE, ADDR and DATA bit by bit (30_encoding.md R70). -/
theorem test_decode_transaction_words :
    decodeTableWord 48 0b1_000001000000_00000011000000100000000100000000 = some (.wr 0x040 0x03020100) ∧
    decodeTableWord 48 0b0_000010010001_00000000000000000000000000000000 = some (.rd 0x091 0) := by decide

/-! ## Datapath (95_test_vectors.md section 2) -/

theorem test_rotations :
    rotl 0x81#8 9 = 0x03 ∧ rotr 0x81#8 9 = 0xC0 ∧ rotl 0x81#8 8 = 0x81 ∧ rotl 0x1234#16 4 = 0x2341 ∧
    rotr 0x12345678#32 36 = 0x81234567 ∧ rotl 0x0123456789ABCDEF#64 8 = 0x23456789ABCDEF01 ∧
    rotr 1#128 127 = 2 := by decide

theorem test_quadratic_function :
    (quad (w := .w8) 0x80).toNat = 0x04 ∧ (quad (w := .w16) 0xFFFF).toNat = 0x10 ∧
    (quad (w := .w32) 0x12345678).toNat = 0xC3C0DF09 ∧ (quad (w := .w64) 1).toNat = 0xC0 ∧
    (quad (w := .w128) 0x0123456789ABCDEF0123456789ABCDEF).toNat = 0xDEB22BC2EF27E65D3784BC55C88C18B9 := by
  decide +kernel

theorem test_key_word_packing :
    (keyWord .w32 (cells 1 0x100 [0, 1, 2, 3, 4, 0xEE]) 5 1).toNat = 0x4 ∧
    (keyWord .w16 (cells 1 0x100 [0xAA, 0xEE]) 1 0).toNat = 0x00AA ∧
    keyWordCount .w32 5 = 2 ∧ keyWordCount .w8 0 = 1 ∧ keyWordCount .w16 255 = 128 := by decide

/-! ## NOP -/

/-- 95_test_vectors.md section 7.1: from 0x4 a NOP leaves 0x2, from 0x10 it leaves 0x12. -/
theorem test_nop_status :
    after (execNop (withStatus false false true false false (ready .w32 0 0 [])))
      (fun t => t.status.word) = some 0x2 ∧
    after (execNop (withStatus false false false false true (ready .w32 0 0 [])))
      (fun t => t.status.word) = some 0x12 := by decide

/-- NOP while a command is in flight is dropped with COLL (42_control.md R97). -/
theorem test_nop_while_busy :
    after (execNop (busy .enc5 (ready .w32 0 0 []))) (fun t => t.status.word) = some 0x11 := by decide

/-! ## SETUP5 and SETUP6 (95_test_vectors.md section 4) -/

theorem test_setup5_8_4_2 :
    after (execSetup5 (busy .setup5 (ready .w8 4 2 (cells 1 0x100 [1, 2])))) (entries 10) =
      some [0xFB, 0xED, 0x78, 0xC5, 0xFD, 0xD9, 0x46, 0xC5, 0x87, 0x6E] := by decide +kernel

theorem test_setup5_128_0_0 :
    after (execSetup5 (busy .setup5 (ready .w128 0 0 []))) (entries 2) =
      some [0xCBDA90181A9BD6993B1430F32BE524BE, 0x52A346248FA710FA808A90871ADB5E77] := by decide +kernel

theorem test_setup6_8_4_2 :
    after (execSetup6 (busy .setup6 (ready .w8 4 2 (cells 1 0x100 [1, 2])))) (entries 12) =
      some [0x06, 0x6E, 0xE3, 0xF8, 0x10, 0x74, 0xC2, 0x39, 0xE2, 0x74, 0xE8, 0x29] := by decide +kernel

/-- Section 1.3: r = 5 is refused, with STATUS 0x6 and S unchanged. -/
theorem test_setup6_bad_rounds :
    after (execSetup6 (busy .setup6 (ready .w32 5 16 []))) (fun t => (t.status.word, t.mem)) =
      some (0x6, []) := by decide

/-! ## ENC5 and DEC5 (95_test_vectors.md sections 1.1 and 5.1) -/

/-- The table of RC5-8/4/2 with key 01 02 (section 4.3). -/
def table5 : Memory :=
  cells 4 0x2000 [0xFB, 0xED, 0x78, 0xC5, 0xFD, 0xD9, 0x46, 0xC5, 0x87, 0x6E]

theorem test_enc5_8_4_2 :
    after (execEnc5 (busy .enc5 (ready .w8 4 2 (cells 1 0x200 [0x11, 0x22] ++ table5)))) (bout 2) =
      some [0xB9, 0x65] := by decide +kernel

theorem test_dec5_8_4_2 :
    after (execDec5 (busy .dec5 (ready .w8 4 2 (cells 1 0x200 [0xB9, 0x65] ++ table5)))) (bout 2) =
      some [0x11, 0x22] := by decide +kernel

/-- S[0], S[1] of RC5-32/0/0 (section 1.1), as bytes. -/
def table32 : Memory := cells 1 0x2000 [0x7A, 0x7B, 0xBA, 0x4D, 0x79, 0x11, 0x1D, 0x1E]

theorem test_enc5_32_zero_rounds :
    after (execEnc5 (busy .enc5 (ready .w32 0 0 (cells 1 0x200 [0, 1, 2, 3, 4, 5, 6, 7] ++ table32))))
      (bout 8) = some [0x7A, 0x7C, 0xBC, 0x50, 0x7D, 0x16, 0x23, 0x25] := by decide +kernel

theorem test_dec5_32_zero_rounds :
    after (execDec5 (busy .dec5 (ready .w32 0 0 (cells 1 0x200 [0, 0, 0, 0, 0, 0, 0, 0] ++ table32))))
      (bout 8) = some [0x86, 0x84, 0x45, 0xB2, 0x87, 0xEE, 0xE2, 0xE1] := by decide +kernel

/-! ## ENC6 and DEC6 (95_test_vectors.md sections 1.2 and 6.1) -/

/-- The table of RC6-8/4/2 with key 01 02 (section 4.3). -/
def table6 : Memory :=
  cells 4 0x2000 [0x06, 0x6E, 0xE3, 0xF8, 0x10, 0x74, 0xC2, 0x39, 0xE2, 0x74, 0xE8, 0x29]

theorem test_enc6_8_4_2 :
    after (execEnc6 (busy .enc6 (ready .w8 4 2 (cells 1 0x200 [0x11, 0x22, 0x33, 0x44] ++ table6)))) (bout 4) =
      some [0xE0, 0xBD, 0x51, 0xA1] := by decide +kernel

theorem test_dec6_8_4_2 :
    after (execDec6 (busy .dec6 (ready .w8 4 2 (cells 1 0x200 [0xE0, 0xBD, 0x51, 0xA1] ++ table6)))) (bout 4) =
      some [0x11, 0x22, 0x33, 0x44] := by decide +kernel

/-- Section 4.4: RC6-16/0/0 of a zero block is S[2], S[0], S[3], S[1]. -/
theorem test_enc6_16_zero_rounds :
    after (execEnc6 (busy .enc6 (ready .w16 0 0 (cells 1 0x200 [0, 0, 0, 0, 0, 0, 0, 0] ++
      [(0x2000, 0x1B), (0x2001, 0xAC), (0x2004, 0x3C), (0x2005, 0x56), (0x2008, 0x6D), (0x2009, 0x81),
        (0x200C, 0xB8), (0x200D, 0xD4)])))) (bout 8) =
      some [0x6D, 0x81, 0x1B, 0xAC, 0xB8, 0xD4, 0x3C, 0x56] := by decide +kernel

/-- Out of contract (r = 5) the output bytes are the draws and STATUS shows DONE alone (section 1.3). -/
theorem test_dec6_out_of_contract :
    after (execDec6 (busy .dec6 (ready .w8 5 0 []))) (fun t => (t.status.word, bout 4 t)) =
      some (0x2, [Config.freeByte 0 0x240, Config.freeByte 0 0x241, Config.freeByte 0 0x242,
        Config.freeByte 0 0x243]) := rfl

/-! ## RD and WR (95_test_vectors.md section 7) -/

/-- The four known bytes at KEY[0..3], read with HBE = 1 (40_host_port.md R78, example). -/
theorem test_rd_key_big_endian :
    after (execRd 0x040 { ready .w32 0 0 (cells 1 0x100 [0, 1, 2, 3]) with ctrl := { ie := false, hbe := true } })
      (fun t => t.rdata) = some 0x00010203 := by decide

/-- W = 64: location S+4 is the upper half of S[0]; a guarded read in flight gives 0 and COLL. -/
theorem test_rd_s_window :
    after (execRd 0x801 (ready .w64 0 0 (cells 1 0x2000 [0x9F, 0x09, 0xB9, 0x8D, 0x3F, 0x60, 0x62, 0xD9])))
      (fun t => t.rdata) = some 0xD962603F ∧
    after (execRd 0x801 (busy .enc5 (ready .w64 0 0 []))) (fun t => (t.rdata, t.status.word)) =
      some (0, 0x11) := by decide

/-- Section 7.3: `WR S+0, 0xFFFF_FFAB` at W = 8 stores the one byte, and the last mapped location at W = 128
is S+0x1FBC. -/
theorem test_wr_s_window :
    after (execWr 0x800 0xFFFFFFAB (ready .w8 0 0 [])) (fun t => t.mem) = some [(0x2000, 0xAB)] ∧
    after (execWr 0xFEF 0x01020304 (ready .w128 0 0 [])) (fun t => t.mem) =
      some [(0x3FBC, 4), (0x3FBD, 3), (0x3FBE, 2), (0x3FBF, 1)] ∧
    after (execWr 0xFF0 0x01020304 (ready .w128 0 0 [])) (fun t => t.mem) = some [] := by decide

/-- Section 7.1: SETUP5 is accepted with STATUS 0x1, an illegal word leaves 0xA; section 7.3: PARAM keeps
every bit. -/
theorem test_wr_registers :
    after (execWr 3 4 (ready .w32 20 16 [])) (fun t => t.status.word) = some 0x1 ∧
    after (execWr 3 0x14 (ready .w32 20 16 [])) (fun t => t.status.word) = some 0xA ∧
    after (execWr 2 0x01001420 (ready .w32 0 0 [])) (fun t => (t.param.w, t.param.r, t.param.b)) =
      some (32, 20, 16) := by decide

/-- Program P6, step 4: rst during a setup (70_reset_and_hazards.md R142): S[0] and S[1] of a setup with
r = 0 become draws. -/
theorem test_reset_aborts_setup :
    (applyReset (busy .setup5 (ready .w8 0 0 []))).mem =
      [(0x2000, Config.freeByte 0 0x2000), (0x2004, Config.freeByte 0 0x2004)] := rfl

/-! ## Every row of the opcode table runs after reset -/

theorem test_rows_run_first :
    (∀ w ∈ [0x0, 0x4, 0x6, 0x8, 0x9, 0xA, 0xB],
      (after (step (State.reset.withFetchWord 32 w)) fun t => t.status.done) = some true) ∧
    after (step (State.reset.withFetchWord 48 0x000000000000)) (fun t => t.rdata) = some 0x520 ∧
    after (step (State.reset.withFetchWord 48 0x100200000020)) (fun t => t.param.w) = some 32 := by
  decide +kernel

/-! ## Witnesses: the hypotheses of each obligation can be met -/

/-- RC5-32/20/16 or RC6-32/20/16 after reset. -/
def base : State := ready .w32 20 16 []

/-- The largest parameters: r = 252, b = 255. -/
def widest (w : WordWidth) : State := ready w 252 255 []

/-- `s` with these inputs to come. -/
def given (xs : List Input) (s : State) : State := { s with inputs := xs }

/-- `s` with rst = 1. -/
def held (s : State) : State := { s with rst := true }

theorem base_idle : idle base := ⟨rfl, rfl⟩
theorem base_valid : setupOk base := by unfold setupOk; decide
theorem base_contract : inContract base := by unfold inContract; decide
theorem busy_in_flight : inFlight (busy .enc6 base) := ⟨rfl, rfl⟩
theorem widest_valid : setupOk (widest .w8) ∧ setupOk (widest .w128) := by unfold setupOk; decide
theorem widest_contract : inContract (widest .w8) ∧ inContract (widest .w128) := by
  unfold inContract; decide

/-- Lengths 32 and 45, smallest and largest words. -/
theorem witness_EncodeOfDecode :
    decodeWord 32 0 = .ok .nop ∧ decodeWord 32 0xB = .ok .dec6 ∧ decodeWord 45 0 = .ok (.rd 0 0) ∧
    decodeWord 45 (2 ^ 45 - 1) = .ok (.wr 0xFFF 0xFFFFFFFF) := by decide

theorem witness_StepRunsPresentedTransaction :
    (given [.transaction (transactionWord 1 3 4), .engine] base).inputs =
      Input.transaction (transactionWord 1 3 4) :: [.engine] ∧
    decodeWord 45 (transactionWord 1 3 4).toNat = .ok (.wr 3 4) := by decide

/-- Enabled with and without inputs, and not enabled for each of the two reasons. -/
theorem witness_EngineStepRunsTheLatchedCommand :
    inFlight (busy .enc6 base) ∧ (busy .enc6 base).opl = some .enc6 ∧ (busy .enc6 base).inputs = [] ∧
    inFlight (given [.engine] (busy .setup5 base)) ∧
    (given [.engine] (busy .setup5 base)).inputs = Input.engine :: [] ∧
    (held base).rst = true ∧ base.status.busy = false ∧ base.inputs = [] :=
  ⟨⟨rfl, rfl⟩, rfl, rfl, ⟨rfl, rfl⟩, rfl, rfl, rfl, rfl⟩

theorem witness_EveryOrdinaryStepAnswers :
    (∀ x, base.inputs.head? = some x → x.ordinary = true) ∧
    (∀ x, (given [.rst true] base).inputs.head? = some x → x.ordinary = true) ∧
    (given [.narrow .byte 0x103 true 7] base).inputs.head? = some (.narrow .byte 0x103 true 7) ∧
    (given [.otherSignals] base).inputs.head? = some .otherSignals := by
  refine ⟨(fun x h => by cases h), (fun x h => ?_), rfl, rfl⟩
  cases h
  rfl

theorem witness_AcceptanceStartsTheCommand : idle base ∧ idle (widest .w128) := ⟨⟨rfl, rfl⟩, rfl, rfl⟩

/-- Idle with IE = 0 and IE = 1, in flight, and idle with STATUS = 0x4. -/
theorem witness_NopCompletesAtAcceptance :
    idle base ∧ idle { base with ctrl := { ie := true, hbe := false } } ∧ inFlight (busy .enc6 base) ∧
    idle (withStatus false false true false false base) ∧
    (withStatus false false true false false base).status.word = 0x4 :=
  ⟨⟨rfl, rfl⟩, ⟨rfl, rfl⟩, ⟨rfl, rfl⟩, ⟨rfl, rfl⟩, rfl⟩

theorem witness_IllegalCommandWord :
    idle base ∧ base.status.word = 0 ∧ decodeCommand 0x1 = .error .unlistedOpcode ∧
    decodeCommand 0xF = .error .unlistedOpcode ∧ decodeCommand 0x10 = .error .reservedBitsSet ∧
    decodeCommand 0x80000004 = .error .reservedBitsSet := ⟨⟨rfl, rfl⟩, by decide⟩

/-- Idle and in flight. -/
theorem witness_ReadsOfRegisters : base.rst = false ∧ (busy .enc6 base).rst = false := ⟨rfl, rfl⟩

theorem witness_WritesOfRegisters :
    base.rst = false ∧ base.status.busy = false ∧ (busy .enc6 base).rst = false := ⟨rfl, rfl, rfl⟩

theorem witness_CfgReportsTheWidth :
    base.rst = false ∧ ∃ t, step (given [.rst true] base) = .next t := ⟨rfl, _, rfl⟩

/-- The ends of each reserved range, the last at each width that has one. -/
theorem witness_ReservedLocationsDoNothing :
    base.rst = false ∧ reserved .w8 0x005 ∧ reserved .w8 0x03F ∧ reserved .w64 0x0A0 ∧ reserved .w64 0x7FF ∧
    reserved .w32 0x9FC ∧ reserved .w64 0xBF8 ∧ reserved .w128 0xFF0 ∧ reserved .w128 0xFFF := by
  unfold reserved addr
  decide

/-- The ends of the three windows, idle. -/
theorem witness_ByteWindowLanes :
    idle base ∧ (inByteWindow 0x040 ∧ addr 0x040 < 0x240) ∧ (inByteWindow 0x07F ∧ addr 0x07F < 0x240) ∧
    (inByteWindow 0x080 ∧ addr 0x080 < 0x240) ∧ (inByteWindow 0x08F ∧ addr 0x08F < 0x240) ∧
    (inByteWindow 0x090 ∧ 0x240 ≤ addr 0x090) ∧ (inByteWindow 0x09F ∧ 0x240 ≤ addr 0x09F) ∧
    ∃ t, exec (.wr 1 2) base = .next t := by
  refine ⟨⟨rfl, rfl⟩, ?_, ?_, ?_, ?_, ?_, ?_, _, rfl⟩ <;> (unfold inByteWindow addr; decide)

/-- The first and last mapped location and the first reserved one, at W = 8, 32 and 128. -/
theorem witness_SWindowIsTheTable :
    idle base ∧ idle (widest .w128) ∧ 0x2000 ≤ addr 0x800 ∧
    ((addr 0x9FB - 0x2000) / 4 / WordWidth.w8.nsw < 508 ∧ 508 ≤ (addr 0x9FC - 0x2000) / 4 / WordWidth.w8.nsw) ∧
    ((addr 0x9FB - 0x2000) / 4 / WordWidth.w32.nsw < 508 ∧
      508 ≤ (addr 0x9FC - 0x2000) / 4 / WordWidth.w32.nsw) ∧
    ((addr 0xFEF - 0x2000) / 4 / WordWidth.w128.nsw < 508 ∧
      508 ≤ (addr 0xFF0 - 0x2000) / 4 / WordWidth.w128.nsw) := by
  unfold idle addr
  decide

theorem witness_SavedTableWordIsRestored :
    idle base ∧ idle (widest .w32) ∧ (widest .w32).width = base.width ∧ inSWindow base.width 0x800 ∧
    inSWindow base.width 0x9FB ∧ (∃ t, exec (.rd 0x9FB 0) base = .next t) ∧
    0x2000 + 4 * (base.width.nsw * 507 + 0) = addr 0x9FB :=
  ⟨⟨rfl, rfl⟩, ⟨rfl, rfl⟩, rfl, by unfold inSWindow addr; decide, by unfold inSWindow addr; decide,
    ⟨_, rfl⟩, by decide⟩

theorem witness_LaneSettingReversesBytes :
    idle base ∧ inByteWindow 0x09F ∧
    (∃ t, exec (.rd 0x09F 0) { base with ctrl := { base.ctrl with hbe := false } } = .next t) ∧
    ∃ u, exec (.rd 0x09F 0) { base with ctrl := { base.ctrl with hbe := true } } = .next u :=
  ⟨⟨rfl, rfl⟩, by unfold inByteWindow addr; decide, ⟨_, rfl⟩, _, rfl⟩

/-- A collision, COLL cleared by a write and by rst, and COLL set by an access. -/
theorem witness_CollisionIsStickyAndHarmless :
    inFlight (busy .enc6 base) ∧ inByteWindow 0x040 ∧ inByteWindow 0x09F ∧ inSWindow base.width 0x800 ∧
    inSWindow base.width 0x9FB ∧
    (let s := given [.transaction (transactionWord 1 4 0x10)] (withStatus false false false false true base)
     let t := nextOf (step s)
     step s = .next t ∧ s.status.coll = true ∧ t.status.coll = false) ∧
    (let s := given [.rst true] (withStatus false false false false true base)
     let t := nextOf (step s)
     step s = .next t ∧ s.status.coll = true ∧ t.status.coll = false) ∧
    (let s := given [.transaction (transactionWord 0 0x040 0)] (busy .enc6 base)
     let t := nextOf (step s)
     step s = .next t ∧ s.status.coll = false ∧ t.status.coll = true) ∧
    base.rst = false ∧ (0x10 : BusWord).getLsbD 4 = true ∧ (∃ t, exec (.wr 4 0x10) base = .next t) :=
  ⟨⟨rfl, rfl⟩, by unfold inByteWindow addr; decide, by unfold inByteWindow addr; decide,
    by unfold inSWindow addr; decide, by unfold inSWindow addr; decide,
    ⟨rfl, rfl, rfl⟩, ⟨rfl, rfl, rfl⟩, ⟨rfl, rfl, rfl⟩, rfl, rfl, _, rfl⟩

theorem witness_IdleReadsAreIdempotent : idle base ∧ idle (widest .w128) := ⟨⟨rfl, rfl⟩, rfl, rfl⟩

theorem witness_InterruptFollowsCompletion :
    (∃ t, exec (EngineOp.instr .dec5) (busy .dec5 base) = .next t) ∧ idle base ∧ base.rst = false ∧
    (∃ t, exec (.wr 3 (opWord .dec6)) base = .next t) ∧
    decodeCommand 0x3 = .error .unlistedOpcode ∧ (∃ t, exec (.wr 3 0x3) base = .next t) ∧
    (given [.rst true] base).inputs.head? = some (.rst true) ∧
    (∃ t, step (given [.rst true] base) = .next t) ∧ (∃ t, exec .nop base = .next t) ∧
    (∃ t, exec (.wr 1 1) base = .next t) ∧ (∃ t, exec (.wr 4 2) base = .next t) ∧
    (∃ t, exec (.wr 0xFFF 2) base = .next t) ∧ ∃ t, exec (.rd 4 0) base = .next t :=
  ⟨⟨_, rfl⟩, ⟨rfl, rfl⟩, rfl, ⟨_, rfl⟩, rfl, ⟨_, rfl⟩, rfl, ⟨_, rfl⟩, ⟨_, rfl⟩, ⟨_, rfl⟩, ⟨_, rfl⟩,
    ⟨_, rfl⟩, _, rfl⟩

theorem witness_ResetValues : setupExtra .setup5 ≠ none ∧ setupExtra .setup6 ≠ none := by decide

/-- A location inside and one just outside each write set. -/
theorem witness_ResetAbortsTheCommandInFlight :
    (given [.rst true] (busy .enc6 base)).inputs = Input.rst true :: [] ∧
    inWriteSet (busy .enc6 base) 0x24F ∧ ¬ inWriteSet (busy .enc6 base) 0x250 ∧
    inWriteSet (busy .enc5 base) 0x247 ∧ ¬ inWriteSet (busy .enc5 base) 0x248 ∧
    inWriteSet (busy .setup5 base) 0x20A7 ∧ inWriteSet (busy .setup6 base) 0x20AF ∧
    ¬ inWriteSet base 0x240 :=
  ⟨rfl, ⟨rfl, show 0x240 ≤ 0x24F ∧ 0x24F < 0x240 + 4 * 4 by decide⟩,
    fun h => absurd h.2.2 (show ¬ 0x250 < 0x240 + 4 * 4 by decide),
    ⟨rfl, show 0x240 ≤ 0x247 ∧ 0x247 < 0x240 + 2 * 4 by decide⟩,
    fun h => absurd h.2.2 (show ¬ 0x248 < 0x240 + 2 * 4 by decide),
    ⟨rfl, base_valid, 41, by decide, 3, by decide, by decide⟩,
    ⟨rfl, base_valid, 43, by decide, 3, by decide, by decide⟩, fun h => absurd h.1 (by decide)⟩

theorem witness_ResetHoldsTheBlock :
    (given [.rst true] (busy .enc6 base)).inputs = Input.rst true :: [] ∧
    (held base).rst = true ∧ (held base).inputs = [] ∧
    (given [.engine] (held base)).inputs = Input.engine :: [] ∧
    (given [.rst false] (held base)).inputs = Input.rst false :: [] ∧
    ∃ t, exec (.wr 3 4) (held base) = .next t := ⟨rfl, rfl, rfl, rfl, rfl, _, rfl⟩

/-- Amounts that are and are not multiples of W. -/
theorem witness_RotationsAreModuloW :
    256 % WordWidth.w128.bits = 0 ∧ 255 % WordWidth.w128.bits ≠ 0 ∧ 0 < WordWidth.w8.bits ∧
    127 < WordWidth.w128.bits := by decide

theorem witness_PackingAndUnpacking : 0 < WordWidth.w8.bytes ∧ 15 < WordWidth.w128.bytes := by decide

/-- b = 0, and two memories that agree below b and differ at b. -/
theorem witness_KeyWordPacking :
    (0 : Nat) = 0 ∧ (∀ i < 1, Memory.read [(0x100, 7)] (0x100 + i) =
      Memory.read [(0x100, 7), (0x101, 9)] (0x100 + i)) ∧ 15 < WordWidth.w128.bytes :=
  ⟨rfl, fun i h => by obtain rfl : i = 0 := by omega
                      rfl, by decide⟩

/-- The first and last entry, and two memories that differ in S alone. -/
theorem witness_TableInitialisation :
    0 < 2 ∧ 507 < 508 ∧ 506 + 1 < 508 ∧ (widest .w8).param.b ≤ 255 ∧
    ∀ a, a < 0x2000 → Memory.read [(0x100, 7)] a = Memory.read [(0x100, 7), (0x2000, 9)] a := by
  refine ⟨by decide, by decide, by decide, by decide, fun a h => ?_⟩
  have h' : ¬ 0x2000 = a := by omega
  simp [Memory.read, Memory.known, h']

/-- r = 0, b = 0 and r = 252, b = 255. -/
theorem witness_MixingIterations :
    setupValid .w8 (ready .w8 0 0 []).param = true ∧ setupValid .w128 (widest .w128).param = true := by
  decide

theorem witness_TablesFitTheRams :
    setupValid .w8 (ready .w8 0 0 []).param = true ∧ setupValid .w128 (widest .w128).param = true := by
  decide

/-- The last valid values and the first invalid ones, for r, b and w, and r not a multiple of 4. -/
theorem witness_SetupFailsExactlyWhenInvalid :
    setupExtra .setup5 ≠ none ∧ setupExtra .setup6 ≠ none ∧ setupOk (widest .w8) ∧
    ¬ setupOk (ready .w32 256 16 []) ∧ ¬ setupOk (ready .w32 20 256 []) ∧ ¬ setupOk (ready .w32 5 16 []) ∧
    ¬ setupOk (State.afterReset .w8) := by
  unfold setupOk
  decide

theorem witness_SetupComputesTheSchedule :
    setupExtra .setup5 = some 2 ∧ setupExtra .setup6 = some 4 ∧ setupOk base ∧ setupOk (widest .w8) :=
  ⟨rfl, rfl, base_valid, widest_valid.1⟩

theorem witness_SetupWriteSet :
    setupExtra .setup5 = some 2 ∧ setupExtra .setup6 = some 4 ∧ setupOk base ∧ setupOk (widest .w128) :=
  ⟨rfl, rfl, base_valid, widest_valid.2⟩

/-- Two states that agree on w, r, b and KEY[0..15] and differ elsewhere. -/
theorem witness_SetupIsDeterministic :
    let u := ready .w32 20 16 [(0x110, 5), (0x240, 9)]
    setupExtra .setup6 = some 4 ∧ setupOk base ∧ u.width = base.width ∧ u.param = base.param ∧
    ∀ i < base.param.pb.toNat, u.mem.read (0x100 + i) = base.mem.read (0x100 + i) := by
  refine ⟨rfl, base_valid, rfl, rfl, fun i h => ?_⟩
  have h' : i < 16 := h
  have h1 : ¬ 0x110 = 0x100 + i := by omega
  have h2 : ¬ 0x240 = 0x100 + i := by omega
  simp [Memory.read, Memory.known, ready, base, h1, h2]

/-- r = 0, r = 20 and r = 252. -/
theorem contract_values :
    inContract (ready .w16 0 0 []) ∧ inContract base ∧ inContract (widest .w128) :=
  ⟨by unfold inContract; decide, base_contract, widest_contract.2⟩

theorem witness_Enc5EncryptsTheBlock : inContract (ready .w16 0 0 []) ∧ inContract (widest .w128) :=
  ⟨contract_values.1, contract_values.2.2⟩
theorem witness_Dec5DecryptsTheBlock : inContract (ready .w16 0 0 []) ∧ inContract (widest .w128) :=
  ⟨contract_values.1, contract_values.2.2⟩
theorem witness_Enc6EncryptsTheBlock : inContract (ready .w16 0 0 []) ∧ inContract (widest .w128) :=
  ⟨contract_values.1, contract_values.2.2⟩
theorem witness_Dec6DecryptsTheBlock : inContract (ready .w16 0 0 []) ∧ inContract (widest .w128) :=
  ⟨contract_values.1, contract_values.2.2⟩

/-- b plays no part: r = 0 with b = 0 and with b = 4095. -/
theorem witness_Rc5WithZeroRounds :
    inContract (ready .w16 0 4095 []) ∧ (ready .w16 0 4095 []).param.pr = 0 :=
  ⟨by unfold inContract; decide, rfl⟩
theorem witness_Rc6WithZeroRounds :
    inContract (ready .w16 0 4095 []) ∧ (ready .w16 0 4095 []).param.pr = 0 :=
  ⟨by unfold inContract; decide, rfl⟩

/-- `s` after `op`, with the output block copied back to BIN. -/
def fedBack (op : EngineOp) (n : Nat) (s : State) : State :=
  let t := nextOf (exec op.instr s)
  { t with mem := t.mem.writeBytes binBase (t.mem.readBytes boutBase n) }

def block5 : State := ready .w8 4 2 (cells 1 0x200 [0x11, 0x22] ++ table5)
def block6 : State := ready .w8 4 2 (cells 1 0x200 [0x11, 0x22, 0x33, 0x44] ++ table6)

theorem witness_Rc5RoundTrip :
    inContract block5 ∧ exec EngineOp.enc5.instr block5 = .next (nextOf (exec EngineOp.enc5.instr block5)) ∧
    (fedBack .enc5 2 block5).width = .w8 ∧
    (fedBack .enc5 2 block5).param = (nextOf (exec EngineOp.enc5.instr block5)).param ∧
    (∀ k < 10, entry .w8 (fedBack .enc5 2 block5).mem.read k =
      entry .w8 (nextOf (exec EngineOp.enc5.instr block5)).mem.read k) ∧
    (∀ i < 2, (fedBack .enc5 2 block5).mem.read (0x200 + i) =
      (nextOf (exec EngineOp.enc5.instr block5)).mem.read (0x240 + i)) ∧
    idle block5 ∧ (15 : BitVec 12).toNat < 16 :=
  ⟨by unfold inContract; decide, rfl, rfl, rfl, by decide +kernel, by decide +kernel, ⟨rfl, rfl⟩, by decide⟩

theorem witness_Rc6RoundTrip :
    inContract block6 ∧ exec EngineOp.dec6.instr block6 = .next (nextOf (exec EngineOp.dec6.instr block6)) ∧
    (fedBack .dec6 4 block6).width = .w8 ∧
    (fedBack .dec6 4 block6).param = (nextOf (exec EngineOp.dec6.instr block6)).param ∧
    (∀ k < 12, entry .w8 (fedBack .dec6 4 block6).mem.read k =
      entry .w8 (nextOf (exec EngineOp.dec6.instr block6)).mem.read k) ∧
    (∀ i < 4, (fedBack .dec6 4 block6).mem.read (0x200 + i) =
      (nextOf (exec EngineOp.dec6.instr block6)).mem.read (0x240 + i)) :=
  ⟨by unfold inContract; decide, rfl, rfl, rfl, by decide +kernel, by decide +kernel⟩

/-- In contract, and out of it by r = 5, by r = 256 and by w. -/
theorem witness_OutOfContractCryptIsArbitrary :
    cryptWords .dec5 = some 2 ∧ cryptWords .enc6 = some 4 ∧ inContract (widest .w128) ∧
    ¬ inContract (ready .w32 5 0 []) ∧ ¬ inContract (ready .w32 256 0 []) ∧
    ¬ inContract (State.afterReset .w8) := by
  refine ⟨rfl, rfl, widest_contract.2, ?_⟩
  unfold inContract
  decide

/-- Two states that agree on w, r, S[0..3] and BIN[0..7] and differ in b, CTRL and KEY. -/
theorem witness_CryptReadsOnlyItsInputs :
    let s := ready .w16 0 0 []
    let u := { ready .w16 0 7 [(0x100, 5)] with ctrl := { ie := true, hbe := true } }
    cryptWords .enc6 = some 4 ∧ inContract s ∧ u.width = s.width ∧ u.param.pw = s.param.pw ∧
    u.param.pr = s.param.pr ∧
    (∀ k < 2 * s.param.pr.toNat + 4, entry s.width u.mem.read k = entry s.width s.mem.read k) ∧
    ∀ i < 4 * s.width.bytes, u.mem.read (0x200 + i) = s.mem.read (0x200 + i) := by
  have h : ∀ a, 0x200 ≤ a → Memory.read [(0x100, 5)] a = Memory.read [] a := fun a ha => by
    have h' : ¬ 0x100 = a := by omega
    simp [Memory.read, Memory.known, h']
  refine ⟨rfl, contract_values.1, rfl, rfl, rfl, fun k _ => ?_, fun i _ => h _ (by omega)⟩
  exact congrArg (BitVec.ofNat 16) (Finset.sum_congr rfl fun m _ =>
    congrArg (fun x : Byte => x.toNat * 2 ^ (8 * m)) (h _ (by omega)))

theorem witness_ResultsIgnoreByteLanes :
    let u := { base with ctrl := { ie := true, hbe := true }, rdata := 7 }
    u.width = base.width ∧ u.param = base.param ∧ u.draws = base.draws ∧
    ∀ a, u.mem.read a = base.mem.read a := ⟨rfl, rfl, rfl, fun _ => rfl⟩

/-- The invariant of an instance that has a command in flight and inputs to come. -/
theorem inv_busy : StateInv (given [.engine] (busy .enc6 base)) where
  memWf := List.Pairwise.nil
  memInRam := fun c h => absurd h List.not_mem_nil
  busyOpl := fun _ => by decide
  busyFlags := fun _ => by decide
  busyPhase := ⟨fun _ => rfl, fun _ => rfl⟩
  rstRegs := fun h => absurd h (by decide)
  hiddenWords := by decide
  hiddenL := ⟨rfl, fun x hx => by rw [List.eq_of_mem_replicate hx]; decide⟩
  hiddenCursors := by decide

theorem witness_StepKeepsInvariant :
    StateInv (given [.engine] (busy .enc6 base)) ∧
    ∃ t, step (given [.engine] (busy .enc6 base)) = .next t := ⟨inv_busy, _, rfl⟩

theorem witness_EveryRunEndsIdle :
    StateInv (given [.engine] (busy .enc6 base)) ∧
    ∀ x ∈ (given [.engine] (busy .enc6 base)).inputs, x.ordinary = true := by
  refine ⟨inv_busy, fun x h => ?_⟩
  have h' : x = .engine := List.mem_singleton.mp h
  rw [h']
  rfl

theorem witness_CommandInputsAreStable :
    inFlight (busy .setup6 base) ∧ (busy .setup6 base).opl = some .setup6 ∧
    (busy .setup6 base).status.err = false := ⟨⟨rfl, rfl⟩, rfl, rfl⟩

theorem witness_IssuedCommandRunsToCompletion : idle base ∧ idle (State.afterReset .w8) :=
  ⟨⟨rfl, rfl⟩, rfl, rfl⟩

theorem witness_HiddenStateIsUnobservable :
    ∃ t, core.run 2 (given [.engine, .rst true] (busy .enc6 base)) = .next t := ⟨_, rfl⟩

/-- A write of KEY, a completion, and a reset that aborts a setup. -/
theorem witness_StorageHasItsOwnWriters :
    (∃ t, step (given [.transaction (transactionWord 1 0x040 7)] base) = .next t) ∧
    (∃ t, step (given [.engine] (busy .enc6 base)) = .next t) ∧
    ∃ t, step (given [.rst true] (busy .setup5 base)) = .next t := ⟨⟨_, rfl⟩, ⟨_, rfl⟩, _, rfl⟩

end Sys2Proof.Tests
end

section
/-! The statements of the family 10_state.md: what CFG reports, and that no step changes the width
(10_state.md R26). -/

namespace Sys2Proof.Machine

/-! ## The two transactions -/

@[simp] theorem exec_rd (q : BitVec 12) (d : BusWord) (s : State) :
    exec (.rd q d) s = .next (busRead q s) := rfl

@[simp] theorem exec_wr (q : BitVec 12) (d : BusWord) (s : State) :
    exec (.wr q d) s = .next (busWrite q d s) := rfl

/-! ## CFG -/

/-- CFG is not guarded: its read is answered in flight too (40_host_port.md R77). -/
theorem busRead_cfg {s : State} (h : s.rst = false) :
    busRead 0 s = { s with rdata := cfgWord s.width } := by
  have hg : (region s.width 0).readGuarded = false := by rw [region_cfg]; rfl
  rw [busRead_eq h (.inr hg), region_cfg]
  rfl

/-- CFG is read-only, and a write to it does not even collide. -/
theorem busWrite_cfg (d : BusWord) (s : State) : busWrite 0 d s = s := by
  rcases busWrite_cases 0 d s with ⟨-, h⟩ | ⟨-, -, hg, -⟩ | ⟨-, -, h⟩
  · exact h
  · rw [region_cfg] at hg
    cases hg
  · rw [h, region_cfg]
    rfl

/-! ## The width along a step -/

@[simp] theorem releaseReset_width (s : State) : (releaseReset s).width = s.width := rfl

@[simp] theorem busRead_width (q : BitVec 12) (s : State) : (busRead q s).width = s.width := by
  rcases busRead_cases q s with ⟨v, h⟩ | ⟨-, -, -, h⟩ <;> simp [h]

@[simp] theorem busWrite_width (q : BitVec 12) (d : BusWord) (s : State) :
    (busWrite q d s).width = s.width := by
  rcases busWrite_cases q d s with ⟨-, h⟩ | ⟨-, -, -, h⟩ | ⟨-, -, h⟩
  · rw [h]
  · simp [h]
  · rw [h, (writeRegion_frame s d _).1]

@[simp] theorem runOp_width (op : EngineOp) (s : State) : (runOp op s).width = s.width :=
  (runOp_frame op s).1

theorem engineTurn_keeps_width {s t : State} (h : engineTurn s = .next t) : t.width = s.width := by
  rcases engineTurn_cases s with ⟨-, -, op, -, ht⟩ | ⟨-, -, -, ht⟩ | ⟨-, ht⟩ <;>
    (rw [ht] at h; cases h; simp)

/-- No step changes the width: not the ENGINE's turn, not either edge of rst, not a transaction. -/
theorem step_keeps_width {s t : State} (h : step s = .next t) : t.width = s.width := by
  rcases step_cases h with ⟨-, ht⟩ | ⟨x, rest, -, hx⟩
  · exact engineTurn_keeps_width ht
  · rcases hx with ⟨-, ht⟩ | ⟨-, rfl⟩ | ⟨-, rfl⟩ | ⟨w, q, d, -, -, rfl⟩ | ⟨w, q, d, -, -, rfl⟩
    · exact engineTurn_keeps_width (s := { s with inputs := rest }) ht
    all_goals simp

/-- Settles O14: a read of CFG is `cfgWord`, evaluated at the five widths; a write of CFG is ignored with
rst = 1, never collides and has no effect otherwise; the width is kept by each kind of step. -/
theorem cfgReportsTheWidth : Obligations.CfgReportsTheWidth := by
  refine ⟨fun s d h => ?_, fun s d => ?_, fun s t h => step_keeps_width h⟩
  · rw [exec_rd, busRead_cfg h]
    cases s.width <;> rfl
  · rw [exec_wr, busWrite_cfg]

end Sys2Proof.Machine
end

section
/-! The statements of the family 20_memory.md: the reserved locations (R45), the byte windows and their
lanes (R46 to R49), and the S window as the key table (R50). -/

namespace Sys2Proof.Machine

open Sys2Proof.Spec

/-! ## Reserved locations -/

/-- A reserved location is not guarded: its read is answered in flight too (40_host_port.md R77). -/
theorem busRead_rsvd {s : State} {q : BitVec 12} (hr : s.rst = false) (hq : region s.width q = .rsvd) :
    busRead q s = { s with rdata := 0 } := by
  rw [busRead_eq hr (.inr (by rw [hq]; rfl)), hq]
  rfl

theorem busWrite_rsvd {s : State} {q : BitVec 12} (d : BusWord) (hr : s.rst = false)
    (hq : region s.width q = .rsvd) : busWrite q d s = s := by
  rw [busWrite_eq hr (.inr (by rw [hq]; rfl)), hq]
  rfl

/-- Settles O15: each of the three ranges is the region `rsvd`, which no transaction guards. -/
theorem reservedLocationsDoNothing : Obligations.ReservedLocationsDoNothing := by
  intro s q d hr hq
  have hreg : region s.width q = .rsvd := region_rsvd hq
  rw [exec_rd, exec_wr, busRead_rsvd hr hreg, busWrite_rsvd d hr hreg]
  exact ⟨rfl, rfl⟩

/-! ## The byte windows -/

/-- Byte lane k of a window read is byte k of the location (20_memory.md R49). -/
theorem extractLsb'_windowRead (m : Memory) (a : Nat) (hbe : Bool) {k : Nat} (hk : k < 4) :
    (windowRead m a hbe).extractLsb' (lane hbe k) 8 = m.read (a + k) :=
  extractLsb'_dataOf (fun i => m.read (a + i)) hbe hk

/-- Byte k of the location takes byte lane k of the data (20_memory.md R49). -/
theorem read_windowWrite_in (m : Memory) (a : Nat) (d : BusWord) (hbe : Bool) {k : Nat} (hk : k < 4) :
    (windowWrite m a d hbe).read (a + k) = d.extractLsb' (lane hbe k) 8 := by
  rw [windowWrite, Memory.read_writeBytes_in (by simpa using hk), getD_bytesOf d hbe hk]
  rfl

theorem read_windowWrite_out {m : Memory} {a b : Nat} {d : BusWord} {hbe : Bool}
    (h : b < a ∨ a + 4 ≤ b) : (windowWrite m a d hbe).read b = m.read b :=
  Memory.read_writeBytes_out (by simpa using h)

/-- All three byte windows are read in the same way (20_memory.md R46 to R48). -/
theorem busRead_byteWindow {s : State} {q : BitVec 12} (hs : idle s) (hq : inByteWindow q) :
    busRead q s = { s with rdata := windowRead s.mem (addr q) s.ctrl.hbe } := by
  obtain ⟨hr, hb⟩ := hs
  rw [busRead_eq hr (.inl hb)]
  rcases region_byteWindow (w := s.width) hq with ⟨n, hn, ha, -⟩ | ⟨n, hn, ha, -⟩ | ⟨n, hn, ha, -⟩ <;>
    (rw [hn, addr, ha]; rfl)

/-- KEY and BLK_IN lie below 0x240 and take the data of a write. -/
theorem busWrite_inputWindow {s : State} {q : BitVec 12} (d : BusWord) (hs : idle s)
    (hq : inByteWindow q) (hlt : addr q < 0x240) :
    busWrite q d s = { s with mem := windowWrite s.mem (addr q) d s.ctrl.hbe } := by
  obtain ⟨hr, hb⟩ := hs
  rw [busWrite_eq hr (.inl hb)]
  rcases region_byteWindow (w := s.width) hq with ⟨n, hn, ha, -⟩ | ⟨n, hn, ha, -⟩ | ⟨n, -, ha, -⟩
  · rw [hn, addr, ha]
    rfl
  · rw [hn, addr, ha]
    rfl
  · unfold addr at hlt
    unfold boutBase at ha
    omega

/-- BLK_OUT lies from 0x240 up and ignores a write (20_memory.md R48). -/
theorem busWrite_boutWindow {s : State} {q : BitVec 12} (d : BusWord) (hs : idle s)
    (hq : inByteWindow q) (hle : 0x240 ≤ addr q) : busWrite q d s = s := by
  obtain ⟨hr, hb⟩ := hs
  rw [busWrite_eq hr (.inl hb)]
  unfold addr at hle
  rcases region_byteWindow (w := s.width) hq with ⟨n, -, ha, hlt⟩ | ⟨n, -, ha, hlt⟩ | ⟨n, hn, -, -⟩
  · unfold keyBase at ha
    omega
  · unfold binBase at ha
    omega
  · rw [hn]
    rfl

/-- Changing the lane setting changes no stored byte (20_memory.md R49). -/
theorem busWrite_ctrl_mem (d : BusWord) (s : State) : (busWrite 1 d s).mem = s.mem := by
  rcases busWrite_cases 1 d s with ⟨-, h⟩ | ⟨-, -, -, h⟩ | ⟨-, -, h⟩
  · rw [h]
  · rw [h, State.setColl_mem]
  · rw [h, region_ctrl]
    rfl

/-- Settles O16: the three windows share one read, KEY and BLK_IN one write, and both go through the byte
lanes of `dataOf` and `bytesOf`; the write frame is that of a run of four bytes. -/
theorem byteWindowLanes : Obligations.ByteWindowLanes := by
  refine ⟨fun s q d hs hq => ⟨_, ?_, fun k hk => extractLsb'_windowRead s.mem (addr q) s.ctrl.hbe hk⟩,
    fun s q d hs hq hlt => ⟨_, ?_, fun k hk => read_windowWrite_in s.mem (addr q) d s.ctrl.hbe hk,
      fun a ha => read_windowWrite_out ha⟩,
    fun s q d hs hq hle => ?_, fun s d t h => ?_⟩
  · rw [exec_rd, busRead_byteWindow hs hq]
  · rw [exec_wr, busWrite_inputWindow d hs hq hlt]
  · rw [exec_wr, busWrite_boutWindow d hs hq hle]
  · cases h
    exact busWrite_ctrl_mem d s

/-! ## The spec's entry of S and the machine's -/

theorem Memory.readLE_eq_sum (m : Memory) (a n : Nat) :
    m.readLE a n = ∑ i ∈ Finset.range n, (m.read (a + i)).toNat * 2 ^ (8 * i) := by
  induction n generalizing a with
  | zero => rfl
  | succ n ih =>
    have htail : m.readLE a (n + 1) = (m.read a).toNat + 256 * m.readLE (a + 1) n := rfl
    rw [htail, ih, Finset.sum_range_succ', Finset.mul_sum, Nat.add_comm]
    congr 1
    · refine Finset.sum_congr rfl fun i _ => ?_
      rw [show a + 1 + i = a + (i + 1) by omega, Nat.mul_succ, pow_add]
      ring
    · simp

/-- The packing sum of 41_datapath.md R90 is the machine's `packLE`. -/
theorem wordAt_eq_packLE (w : WordWidth) (m : Memory) (a : Nat) : wordAt w m.read a = packLE w m a := by
  rw [wordAt, packLE, Memory.readLE_eq_sum]

theorem entry_eq_sEntry (w : WordWidth) (m : Memory) (k : Nat) : entry w m.read k = sEntry w m k :=
  wordAt_eq_packLE w m (sAddr w k)

/-! ## Slices of an entry -/

/-- Location n of the S window begins at byte 4·(n mod NSW) of entry n div NSW (20_memory.md R50). -/
theorem sAddr_add_slice (w : WordWidth) (n : Nat) :
    sAddr w (n / w.nsw) + 4 * (n % w.nsw) = sBase + 4 * n := by
  have := Nat.div_add_mod n w.nsw
  unfold sAddr
  omega

/-- The bytes of slice m that belong to the entry are the first `sliceBytes` of its four. -/
theorem lt_sliceBytes_iff {w : WordWidth} {m i : Nat} (hm : m < w.nsw) (hi : i < 4) :
    i < sliceBytes w ↔ 4 * m + i < w.bytes := by
  cases w <;> simp [WordWidth.nsw, WordWidth.bits, sliceBytes, WordWidth.bytes] at hm ⊢ <;> omega

theorem sliceBytes_le (w : WordWidth) : sliceBytes w ≤ 4 := Nat.min_le_left _ _

theorem Memory.testBit_readLE {m : Memory} {a n i : Nat} (hi : i < 8 * n) :
    (m.readLE a n).testBit i = (m.read (a + i / 8)).getLsbD (i % 8) := by
  rw [Memory.readLE, testBit_fromLE, Memory.getD_readBytes (by omega)]

/-- A run of n bytes is a number below 2^(8n). -/
theorem Memory.testBit_readLE_of_ge {m : Memory} {a n i : Nat} (hi : 8 * n ≤ i) :
    (m.readLE a n).testBit i = false := by
  rw [Memory.readLE, testBit_fromLE, List.getD_eq_default _ _ (by rw [Memory.length_readBytes]; omega)]
  simp

/-- Bit i of slice n mod NSW of entry n div NSW stands in byte i/8 of location n. -/
theorem getLsbD_sEntry_slice {w : WordWidth} {m : Memory} {n i : Nat}
    (hi : 32 * (n % w.nsw) + i < w.bits) :
    (sEntry w m (n / w.nsw)).getLsbD (32 * (n % w.nsw) + i) =
      (m.read (sBase + 4 * n + i / 8)).getLsbD (i % 8) := by
  have ha := sAddr_add_slice w n
  have hbyte : sAddr w (n / w.nsw) + (32 * (n % w.nsw) + i) / 8 = sBase + 4 * n + i / 8 := by omega
  have hbit : (32 * (n % w.nsw) + i) % 8 = i % 8 := by omega
  rw [sEntry, getLsbD_packLE hi, hbyte, hbit]

/-- A read of location n gives its slice of the entry, 0 beyond the entry (20_memory.md R50). -/
theorem getLsbD_sRead (w : WordWidth) (m : Memory) (n : Nat) {i : Nat} (hi : i < 32) :
    (sRead w m n).getLsbD i = (sEntry w m (n / w.nsw)).getLsbD (32 * (n % w.nsw) + i) := by
  have hslice := lt_sliceBytes_iff (Nat.mod_lt n w.nsw_pos) (i := i / 8) (by omega)
  have hbits := w.bits_eq
  rw [sRead, BitVec.getLsbD_ofNat, decide_eq_true hi, Bool.true_and]
  by_cases hin : i / 8 < sliceBytes w
  · have := hslice.mp hin
    rw [Memory.testBit_readLE (by omega), getLsbD_sEntry_slice (by omega)]
  · have := mt hslice.mpr hin
    rw [Memory.testBit_readLE_of_ge (by omega), BitVec.getLsbD_of_ge _ _ (by omega)]

theorem read_sWrite_in {w : WordWidth} {m : Memory} {n i : Nat} {d : BusWord} (hi : i < sliceBytes w) :
    (sWrite w m n d).read (sBase + 4 * n + i) = (toLE (sliceBytes w) d.toNat).getD i 0 :=
  Memory.read_writeBytes_in (by simpa using hi)

theorem read_sWrite_out {w : WordWidth} {m : Memory} {n b : Nat} {d : BusWord}
    (h : b < sBase + 4 * n ∨ sBase + 4 * n + 4 ≤ b) : (sWrite w m n d).read b = m.read b := by
  have := sliceBytes_le w
  exact Memory.read_writeBytes_out (by rw [length_toLE]; omega)

/-- A write of location n replaces its slice of the entry and keeps the other bits (20_memory.md R50). -/
theorem getLsbD_sEntry_sWrite {w : WordWidth} (m : Memory) (n : Nat) (d : BusWord) {i : Nat}
    (hi : i < w.bits) :
    (sEntry w (sWrite w m n d) (n / w.nsw)).getLsbD i =
      if 32 * (n % w.nsw) ≤ i ∧ i < 32 * (n % w.nsw) + 32 then d.getLsbD (i - 32 * (n % w.nsw))
      else (sEntry w m (n / w.nsw)).getLsbD i := by
  have hbits := w.bits_eq
  split
  · rename_i hin
    obtain ⟨hle, hlt⟩ := hin
    obtain ⟨j, rfl⟩ := Nat.exists_eq_add_of_le hle
    have hj : j / 8 < sliceBytes w :=
      (lt_sliceBytes_iff (Nat.mod_lt n w.nsw_pos) (by omega)).mpr (by omega)
    rw [getLsbD_sEntry_slice hi, read_sWrite_in hj, getLsbD_toLE hj (Nat.mod_lt j (by decide)),
      Nat.div_add_mod, Nat.add_sub_cancel_left]
    rfl
  · rename_i hout
    have ha := sAddr_add_slice w n
    rw [sEntry, sEntry, getLsbD_packLE hi, getLsbD_packLE hi, read_sWrite_out (by omega)]

/-! ## The S window -/

theorem busRead_sWindow {s : State} {q : BitVec 12} {n : Nat} (hs : idle s) (hq : addr q = sBase + 4 * n)
    (hn : n / s.width.nsw < smax) : busRead q s = { s with rdata := sRead s.width s.mem n } := by
  obtain ⟨hr, hb⟩ := hs
  rw [busRead_eq hr (.inl hb), region_sWindow hq, if_pos hn]
  rfl

theorem busWrite_sWindow {s : State} {q : BitVec 12} {n : Nat} (d : BusWord) (hs : idle s)
    (hq : addr q = sBase + 4 * n) (hn : n / s.width.nsw < smax) :
    busWrite q d s = { s with mem := sWrite s.width s.mem n d } := by
  obtain ⟨hr, hb⟩ := hs
  rw [busWrite_eq hr (.inl hb), region_sWindow hq, if_pos hn]
  rfl

/-- Settles O17: location n is slice n mod NSW of entry n div NSW, so reads and writes are `sRead` and
`sWrite` bit by bit; beyond entry 507 the location is reserved. -/
theorem sWindowIsTheTable : Obligations.SWindowIsTheTable := by
  intro s q d hs hq
  have haddr : addr q = sBase + 4 * ((addr q - 0x2000) / 4) := by
    unfold addr sBase at *
    omega
  generalize (addr q - 0x2000) / 4 = n at haddr ⊢
  refine ⟨fun hk => ⟨⟨sRead s.width s.mem n, ?_, fun i hi => ?_⟩,
    sWrite s.width s.mem n d, ?_, fun i hi => ?_, fun a ha => ?_⟩, fun hk => ?_⟩
  · rw [exec_rd, busRead_sWindow hs haddr hk]
  · rw [entry_eq_sEntry]
    exact getLsbD_sRead s.width s.mem n hi
  · rw [exec_wr, busWrite_sWindow d hs haddr hk]
  · rw [entry_eq_sEntry, entry_eq_sEntry]
    exact getLsbD_sEntry_sWrite s.mem n d hi
  · exact read_sWrite_out (haddr ▸ ha)
  · have hreg : region s.width q = .rsvd := by
      rw [region_sWindow haddr, if_neg (Nat.not_lt.mpr hk)]
    obtain ⟨hr, -⟩ := hs
    rw [exec_rd, exec_wr, busRead_rsvd hr hreg, busWrite_rsvd d hr hreg]
    exact ⟨rfl, rfl⟩

end Sys2Proof.Machine
end

section
/-! The statements of the family 30_encoding.md: the opcode map of R72, and the illegal command words of
R66 with what one of them does when it is accepted (42_control.md R98). -/

namespace Sys2Proof.Machine

open Sys2Proof.Spec

/-! ## The opcode map -/

/-- The seven command words with their instructions (30_encoding.md R65). -/
def opcodeMap : List (BusWord × Instr) :=
  [(0x0#32, .nop), (0x4#32, .setup5), (0x6#32, .setup6), (0x8#32, .enc5), (0x9#32, .dec5),
    (0xA#32, .enc6), (0xB#32, .dec6)]

/-- The nine opcodes that name no instruction (30_encoding.md R66). -/
def unlistedOpcodes : List (BitVec 4) :=
  [0b0001#4, 0b0010#4, 0b0011#4, 0b0101#4, 0b0111#4, 0b1100#4, 0b1101#4, 0b1110#4, 0b1111#4]

/-- The words that are no command word: a reserved bit is set, or the opcode is unlisted
(30_encoding.md R66). -/
def IllegalWord (d : BusWord) : Prop :=
  d.extractLsb' 4 28 ≠ 0 ∨ d.extractLsb' 0 4 ∈ unlistedOpcodes

theorem decodeCommand_reserved {d : BusWord} (h : d.extractLsb' 4 28 ≠ 0) :
    decodeCommand d = .error .reservedBitsSet := by
  rw [decodeCommand, if_pos h]

theorem decodeCommand_opcodeMap : ∀ p ∈ opcodeMap, decodeCommand p.1 = .ok p.2 := by decide

theorem not_illegalWord_opcodeMap : ∀ p ∈ opcodeMap, ¬ IllegalWord p.1 := by
  unfold IllegalWord
  decide

/-- A word without reserved bits is its opcode. -/
theorem eq_append_opcode {d : BusWord} (h : d.extractLsb' 4 28 = 0) : d = 0#28 ++ d.extractLsb' 0 4 := by
  have hsplit : d.extractLsb' 4 28 ++ d.extractLsb' 0 4 = d.extractLsb' 0 32 :=
    BitVec.extractLsb'_append_extractLsb'_eq_extractLsb' rfl
  rw [h, BitVec.extractLsb'_eq_self] at hsplit
  exact hsplit.symm

/-- Each of the sixteen opcodes is a row of the map or an unlisted one. -/
theorem opcode_cases : ∀ op : BitVec 4,
    (∃ p ∈ opcodeMap, p.1 = 0#28 ++ op) ∨
    (op ∈ unlistedOpcodes ∧ decodeCommand (0#28 ++ op) = .error .unlistedOpcode) := by
  decide

/-- What decoding a command word can answer (30_encoding.md R72). -/
theorem decodeCommand_cases (d : BusWord) :
    (∃ i, (d, i) ∈ opcodeMap ∧ decodeCommand d = .ok i) ∨
    (IllegalWord d ∧ ∃ e, decodeCommand d = .error e) := by
  by_cases hr : d.extractLsb' 4 28 = 0
  · have hd := eq_append_opcode hr
    rcases opcode_cases (d.extractLsb' 0 4) with ⟨⟨w, i⟩, hp, hw⟩ | ⟨hu, he⟩
    · obtain rfl : w = d := hw.trans hd.symm
      exact .inl ⟨i, hp, decodeCommand_opcodeMap _ hp⟩
    · rw [← hd] at he
      exact .inr ⟨.inr hu, _, he⟩
  · exact .inr ⟨.inl hr, _, decodeCommand_reserved hr⟩

theorem decodeCommand_eq_ok_iff {d : BusWord} {i : Instr} :
    decodeCommand d = .ok i ↔ (d, i) ∈ opcodeMap := by
  refine ⟨fun h => ?_, fun h => decodeCommand_opcodeMap _ h⟩
  rcases decodeCommand_cases d with ⟨j, hj, hd⟩ | ⟨-, e, hd⟩
  · rw [hd, Except.ok.injEq] at h
    exact h ▸ hj
  · rw [hd] at h
    cases h

/-- Settles O3: the map's seven rows decode to their instructions, every other word is illegal, and an
answer is an instruction or a rejection. -/
theorem decodeIsTheOpcodeMap : Obligations.DecodeIsTheOpcodeMap := by
  refine fun d => ⟨fun i => decodeCommand_eq_ok_iff, ?_⟩
  cases decodeCommand d with
  | error e => simp
  | ok i => simp

/-! ## Illegal command words -/

theorem decodeCommand_eq_error_iff {d : BusWord} :
    (∃ e, decodeCommand d = .error e) ↔ IllegalWord d := by
  rcases decodeCommand_cases d with ⟨i, hi, hd⟩ | ⟨hill, he⟩
  · have hlegal : ¬ IllegalWord d := not_illegalWord_opcodeMap _ hi
    simp [hd, hlegal]
  · exact iff_of_true he hill

/-- While idle a CMD write is the acceptance of its word (40_host_port.md R79). -/
theorem busWrite_cmd {s : State} (d : BusWord) (hs : idle s) : busWrite 3 d s = accept d s := by
  obtain ⟨hr, hb⟩ := hs
  rw [busWrite_eq hr (.inl hb), region_cmd]
  rfl

/-- Acceptance of an illegal word (42_control.md R98). -/
theorem accept_illegal {d : BusWord} {e : Reject} (hd : decodeCommand d = .error e) (s : State) :
    accept d s = s.clearForAccept.setIllegal := by
  rw [accept, hd]

/-- An illegal word changes STATUS only (42_control.md R98). -/
theorem exec_wr_cmd_illegal {s : State} {d : BusWord} {e : Reject} (hs : idle s)
    (hd : decodeCommand d = .error e) :
    exec (.wr 3 d) s = .next { s with
      status := { busy := false, done := true, err := false, ill := true, coll := s.status.coll } } := by
  rw [exec_wr, busWrite_cmd d hs, accept_illegal hd]
  obtain ⟨-, hb⟩ := hs
  simp [State.setIllegal, State.clearForAccept, hb]

/-- COLL is bit 4 of STATUS (10_state.md R30). -/
theorem Status.getLsbD_word_coll (t : Status) : t.word.getLsbD 4 = t.coll := by
  simp only [Status.word, BitVec.getLsbD_setWidth, BitVec.getLsbD_append]
  simp

/-- Settles O11: the rejected words are the illegal words; the effect is that of acceptance while idle;
STATUS = 0 has COLL = 0, so DONE and ILL are the bits left. -/
theorem illegalCommandWord : Obligations.IllegalCommandWord := by
  refine fun d => ⟨decodeCommand_eq_error_iff, fun s e hs he => exec_wr_cmd_illegal hs he,
    fun s t hs h0 ht => ?_⟩
  have hill : decodeCommand 0x3 = .error .unlistedOpcode := by decide
  have hcoll : s.status.coll = false := by
    rw [← Status.getLsbD_word_coll, h0]
    rfl
  rw [exec_wr_cmd_illegal hs hill, hcoll] at ht
  cases ht
  show Status.word ⟨false, true, false, true, false⟩ = 0xA
  decide

end Sys2Proof.Machine
end

section
/-! The statements of the family 41_datapath.md: the rotations (R86 to R88), the RC6 function f (R89),
words packed in byte buffers (R90, R91) and key words (R92). -/

namespace Sys2Proof

theorem WordWidth.bits_pos (w : WordWidth) : 0 < w.bits := by cases w <;> decide

/-- LGW is the logarithm of W (00_scope.md R8). -/
theorem WordWidth.two_pow_lgw (w : WordWidth) : 2 ^ w.lgw = w.bits := by cases w <;> rfl

/-- Rotation by LGW is by LGW places: it is below W. -/
theorem WordWidth.lgw_mod_bits (w : WordWidth) : w.lgw % w.bits = w.lgw :=
  Nat.mod_eq_of_lt (w.two_pow_lgw ▸ Nat.lt_two_pow_self)

namespace Machine

/-! ## Rotations -/

/-- Rotating left moves bit j to place j + s (41_datapath.md R87). -/
theorem getLsbD_rotl {W : Nat} (x : BitVec W) (n : Nat) {i : Nat} (hi : i < W) :
    (rotl x n).getLsbD i = x.getLsbD ((i + W - n % W) % W) := by
  have hs : n % W < W := Nat.mod_lt n (by omega)
  rw [rotl, BitVec.getLsbD_rotateLeft]
  generalize n % W = s at hs ⊢
  by_cases hlt : i < s
  · have hplace : i + W - s = W - s + i := by omega
    rw [decide_eq_true hlt, cond_true, hplace, Nat.mod_eq_of_lt (by omega)]
  · have hplace : i + W - s = i - s + W := by omega
    rw [decide_eq_false hlt, cond_false, decide_eq_true hi, Bool.true_and, hplace, Nat.add_mod_right,
      Nat.mod_eq_of_lt (by omega)]

/-- Rotating right moves bit j to place j - s (41_datapath.md R88). -/
theorem getLsbD_rotr {W : Nat} (x : BitVec W) (n : Nat) {i : Nat} (hi : i < W) :
    (rotr x n).getLsbD i = x.getLsbD ((i + n % W) % W) := by
  have hs : n % W < W := Nat.mod_lt n (by omega)
  rw [rotr, BitVec.getLsbD_rotateRight]
  generalize n % W = s at hs ⊢
  by_cases hlt : i < W - s
  · rw [decide_eq_true hlt, cond_true, Nat.add_comm i, Nat.mod_eq_of_lt (by omega)]
  · have hplace : i + s = i - (W - s) + W := by omega
    rw [decide_eq_false hlt, cond_false, decide_eq_true hi, Bool.true_and, hplace, Nat.add_mod_right,
      Nat.mod_eq_of_lt (by omega)]

theorem rotr_rotl {W : Nat} (x : BitVec W) (n : Nat) : rotr (rotl x n) n = x := by
  apply BitVec.eq_of_getLsbD_eq
  intro i hi
  have hs : n % W < W := Nat.mod_lt n (by omega)
  have hback : ((i + n % W) % W + W - n % W) % W = i := by
    rw [Nat.add_sub_assoc hs.le, Nat.mod_add_mod, show i + n % W + (W - n % W) = i + W by omega,
      Nat.add_mod_right, Nat.mod_eq_of_lt hi]
  rw [getLsbD_rotr _ _ hi, getLsbD_rotl _ _ (Nat.mod_lt _ (by omega)), hback]

theorem rotl_rotr {W : Nat} (x : BitVec W) (n : Nat) : rotl (rotr x n) n = x := by
  apply BitVec.eq_of_getLsbD_eq
  intro i hi
  have hs : n % W < W := Nat.mod_lt n (by omega)
  have hback : ((i + W - n % W) % W + n % W) % W = i := by
    rw [Nat.mod_add_mod, Nat.sub_add_cancel (by omega), Nat.add_mod_right, Nat.mod_eq_of_lt hi]
  rw [getLsbD_rotl _ _ hi, getLsbD_rotr _ _ (Nat.mod_lt _ (by omega)), hback]

/-- Rotation by a multiple of W changes nothing (41_datapath.md R87). -/
theorem rotl_of_mod_eq_zero {W : Nat} (x : BitVec W) {n : Nat} (h : n % W = 0) : rotl x n = x := by
  apply BitVec.eq_of_getLsbD_eq
  intro i hi
  rw [getLsbD_rotl x n hi, h, Nat.sub_zero, Nat.add_mod_right, Nat.mod_eq_of_lt hi]

/-- The closed form of R87: the bits that stay in the word are a multiple of 2^s, those that come round
are below 2^s, so joining them is adding them. -/
theorem toNat_rotl {W : Nat} (hW : 0 < W) (x : BitVec W) (n : Nat) :
    (rotl x n).toNat = (x.toNat * 2 ^ (n % W)) % 2 ^ W + x.toNat / 2 ^ (W - n % W) := by
  have hs : n % W < W := Nat.mod_lt n hW
  have hpow : 2 ^ W = 2 ^ (n % W) * 2 ^ (W - n % W) := by rw [← pow_add]; congr 1; omega
  have hhigh : x.toNat / 2 ^ (W - n % W) < 2 ^ (n % W) :=
    Nat.div_lt_of_lt_mul (by rw [Nat.mul_comm, ← hpow]; exact x.isLt)
  have hlow : (x.toNat * 2 ^ (n % W)) % 2 ^ W = 2 ^ (n % W) * (x.toNat % 2 ^ (W - n % W)) := by
    rw [hpow, Nat.mul_comm x.toNat, Nat.mul_mod_mul_left]
  rw [rotl, BitVec.toNat_rotateLeft, Nat.shiftLeft_eq, Nat.shiftRight_eq_div_pow, hlow,
    Nat.two_pow_add_eq_or_of_lt hhigh]

/-- Settles O26: the bits of each rotation are those of its argument at a place shifted modulo W, and the
two shifts cancel. -/
theorem rotationsAreModuloW : Obligations.RotationsAreModuloW := fun w x n =>
  ⟨fun _ hi => getLsbD_rotl x n hi, fun _ hi => getLsbD_rotr x n hi, rotl_of_mod_eq_zero x,
    fun _ => toNat_rotl (w.bits_pos) x n, rotr_rotl x n, rotl_rotr x n⟩

/-! ## The function f -/

/-- The word product of R89 is the exact product modulo 2^W. -/
theorem toNat_quad_product {w : WordWidth} (x : Word w) :
    (x * (x + x + 1)).toNat = x.toNat * (2 * x.toNat + 1) % 2 ^ w.bits := by
  have hofNat : x * (x + x + 1) = BitVec.ofNat w.bits (x.toNat * (2 * x.toNat + 1)) := by
    rw [BitVec.ofNat_mul, BitVec.ofNat_add, two_mul, BitVec.ofNat_add, BitVec.ofNat_toNat,
      BitVec.setWidth_eq]
    rfl
  rw [hofNat, BitVec.toNat_ofNat]

/-- Settles O27: f is the closed form of ROTL at the amount LGW, which is below W. -/
theorem quadraticFunction : Obligations.QuadraticFunction := by
  refine ⟨fun w x => ⟨w.two_pow_lgw, ?_⟩, by decide, by decide⟩
  rw [quad, toNat_rotl (w.bits_pos), toNat_quad_product, w.lgw_mod_bits]

/-! ## Packing and unpacking -/

/-- Settles O28: the packing sum, the bytes and the frame of unpacking, and the round trip. -/
theorem packingAndUnpacking : Obligations.PackingAndUnpacking := fun w m a x =>
  ⟨(wordAt_eq_packLE w m a).symm, fun _ hi => read_unpackLE_in hi, fun _ hb => read_unpackLE_out hb,
    packLE_unpackLE m a x⟩

/-! ## Key words -/

theorem fromLE_eq_sum (bs : List Byte) :
    fromLE bs = ∑ i ∈ Finset.range bs.length, (bs.getD i 0).toNat * 2 ^ (8 * i) := by
  induction bs with
  | nil => rfl
  | cons b bs ih =>
    rw [fromLE, ih, List.length_cons, Finset.sum_range_succ', Finset.mul_sum, Nat.add_comm]
    congr 1
    · refine Finset.sum_congr rfl fun i _ => ?_
      rw [List.getD_cons_succ, Nat.mul_succ, pow_add]
      ring
    · simp

/-- The machine's key word is the spec's sum (41_datapath.md R92). -/
theorem keyWord_eq_spec (w : WordWidth) (m : Memory) (b k : Nat) :
    keyWord w m b k = Spec.keyWord w m.read b k := by
  rw [keyWord, Spec.keyWord, fromLE_eq_sum, length_keyBytes]
  congr 1
  refine Finset.sum_congr rfl fun i hi => ?_
  rw [getD_keyBytes (Finset.mem_range.mp hi), keyByteBelow, apply_ite BitVec.toNat]
  rfl

/-- Byte i of the word made of a run of bytes is byte i of the run. -/
theorem extractLsb'_ofNat_fromLE {w : WordWidth} (bs : List Byte) {i : Nat} (hi : i < w.bytes) :
    (BitVec.ofNat w.bits (fromLE bs)).extractLsb' (8 * i) 8 = bs.getD i 0 := by
  apply BitVec.eq_of_getLsbD_eq
  intro j hj
  have hbits := w.bits_eq
  have hplace : 8 * i + j < w.bits := by omega
  rw [BitVec.getLsbD_extractLsb', BitVec.getLsbD_ofNat, testBit_fromLE, decide_eq_true hj,
    decide_eq_true hplace, Bool.true_and, Bool.true_and, show (8 * i + j) / 8 = i by omega,
    show (8 * i + j) % 8 = j by omega]

/-- Byte i of key word k is the packed key byte at index k·WB + i. -/
theorem extractLsb'_keyWord {w : WordWidth} (m : Memory) (b k : Nat) {i : Nat} (hi : i < w.bytes) :
    (keyWord w m b k).extractLsb' (8 * i) 8 = keyByteBelow m b (k * w.bytes + i) := by
  rw [keyWord, extractLsb'_ofNat_fromLE _ hi, getD_keyBytes hi]

/-- An empty key still has one key word (00_scope.md R12). -/
theorem keyWordCount_zero (w : WordWidth) : keyWordCount w 0 = 1 := by cases w <;> rfl

/-- With b = 0 no key byte is read, and every byte of a key word is 0. -/
theorem keyWord_empty (w : WordWidth) (m : Memory) (k : Nat) : keyWord w m 0 k = 0 := by
  refine eq_of_bytes fun i hi => ?_
  rw [extractLsb'_keyWord m 0 k hi, keyByteBelow, if_neg (Nat.not_lt_zero _)]
  exact BitVec.extractLsb'_zero.symm

/-- Settles O29: the sum of R92 and its bytes, the key of length 0, and that only key bytes below b count. -/
theorem keyWordPacking : Obligations.KeyWordPacking := by
  refine fun w m m' b k => ⟨keyWord_eq_spec w m b k, fun i hi => extractLsb'_keyWord m b k hi,
    fun hb => ?_, fun h => keyWord_congr k h⟩
  subst hb
  exact ⟨keyWordCount_zero w, keyWord_empty w m 0⟩

end Machine
end Sys2Proof
end

section
/-! The statements of the family 43_key_schedule.md: the table before mixing (R108), the iterations of the
mixing pass (R109), the write set of a setup (R110), and that its table depends on W, x, r, b and
KEY[0..b-1] alone (R112). -/

namespace Sys2Proof

/-- No width has more than 255 words in L (00_scope.md R12). -/
theorem WordWidth.lmax_le (w : WordWidth) : w.lmax ≤ 255 := by cases w <;> decide

namespace Machine

open Sys2Proof.Spec

/-! ## The table before mixing -/

@[simp] theorem length_initEntries (w : WordWidth) (n : Nat) (x : Word w) :
    (initEntries w n x).length = n := by
  induction n generalizing x with
  | zero => rfl
  | succ n ih => rw [initEntries, List.length_cons, ih]

theorem ofNat_succ_mul {W : Nat} (i : Nat) (q : BitVec W) :
    BitVec.ofNat W (i + 1) * q = BitVec.ofNat W i * q + q := by
  rw [BitVec.ofNat_add, BitVec.add_mul, BitVec.one_mul]

/-- The recurrence of R108 in closed form. -/
theorem getD_initEntries {w : WordWidth} {n i : Nat} (x : Word w) (hi : i < n) :
    (initEntries w n x).getD i 0 = x + BitVec.ofNat w.bits i * magicQ w := by
  induction n generalizing x i with
  | zero => omega
  | succ n ih =>
    cases i with
    | zero => simp [initEntries]
    | succ i =>
      rw [initEntries, List.getD_cons_succ, ih _ (by omega), ofNat_succ_mul]
      ring

/-! ## The mixing pass -/

/-- The pass one iteration longer is one iteration more at its end. -/
theorem mixSteps_succ {w : WordWidth} (t c n : Nat) (z : Mix w) :
    mixSteps t c (n + 1) z = mixStep t c (mixSteps t c n z) := by
  induction n generalizing z with
  | zero => rfl
  | succ n ih => exact ih (mixStep t c z)

@[simp] theorem length_mixSteps_s {w : WordWidth} (t c n : Nat) (z : Mix w) :
    (mixSteps t c n z).s.length = z.s.length := by
  induction n with
  | zero => rfl
  | succ n ih => rw [mixSteps_succ, mixStep, List.length_set, ih]

/-- A rotation amount counts modulo W (41_datapath.md R86). -/
theorem rotl_mod {W : Nat} (x : BitVec W) (n : Nat) : rotl x (n % W) = rotl x n :=
  BitVec.rotateLeft_mod_eq_rotateLeft

/-- The working storage when the mixing pass starts (43_key_schedule.md R107, R108). -/
def mixStart (w : WordWidth) (m : Memory) (x : Nat) (p : Param) : Mix w where
  s := initEntries w (tableLength x p) (magicP w)
  l := keyWords w m p.b 0 (keyWordCount w p.b)
  a := 0
  b := 0
  i := 0
  j := 0

theorem expandKey_eq (w : WordWidth) (m : Memory) (x : Nat) (p : Param) :
    expandKey w m x p =
      mixSteps (tableLength x p) (keyWordCount w p.b) (mixCount w x p) (mixStart w m x p) := rfl

@[simp] theorem length_expandKey_s (w : WordWidth) (m : Memory) (x : Nat) (p : Param) :
    (expandKey w m x p).s.length = tableLength x p := by
  rw [expandKey_eq, length_mixSteps_s]
  exact length_initEntries w _ _

/-- A key of at most 255 bytes fits L (00_scope.md R12). -/
theorem keyWordCount_le_lmax (w : WordWidth) {b : Nat} (hb : b ≤ 255) : keyWordCount w b ≤ w.lmax := by
  cases w <;> simp only [keyWordCount, WordWidth.bytes, WordWidth.lmax] <;> omega

/-- A longer table takes no fewer iterations. -/
theorem mixCount_mono (w : WordWidth) (p : Param) {x y : Nat} (h : x ≤ y) :
    mixCount w x p ≤ mixCount w y p := by
  unfold mixCount tableLength
  omega

/-- The count is bounded by the table length below and by the sizes of the two RAMs above: r is at most
252, so t is at most 508 (00_scope.md R11, R12). -/
theorem mixCount_bounds {w : WordWidth} {p : Param} (h : setupValid w p = true) :
    6 ≤ mixCount w 2 p ∧ mixCount w 4 p ≤ 1524 := by
  obtain ⟨-, hr, hr4, hb⟩ := (setupValid_iff w p).mp h
  have hc := keyWordCount_le_lmax w hb
  have hl := w.lmax_le
  unfold mixCount tableLength
  omega

/-- Settles O31: the last iteration of n + 1 is `mixStep` on what n leave; the pass starts from
`mixStart`; the count is monotone in x and bounded at both ends. -/
theorem mixingIterations : Obligations.MixingIterations := by
  refine ⟨fun w t c n z => ?_, fun w m x p => ⟨mixStart w m x p, rfl, rfl, rfl, rfl, rfl⟩,
    fun w p h => ?_⟩
  · dsimp only
    rw [mixSteps_succ, rotl_mod]
    exact ⟨rfl, rfl, rfl, rfl, rfl, rfl⟩
  · obtain ⟨hlo, hhi⟩ := mixCount_bounds h
    exact ⟨hlo, mixCount_mono w p (by decide), hhi⟩

/-! ## What the table depends on -/

theorem keyWords_congr {w : WordWidth} {m m' : Memory} {b : Nat} (k n : Nat)
    (h : ∀ i < b, m.read (keyBase + i) = m'.read (keyBase + i)) :
    keyWords w m b k n = keyWords w m' b k n := by
  induction n generalizing k with
  | zero => rfl
  | succ n ih => rw [keyWords, keyWords, keyWord_congr k h, ih]

/-- The key schedule reads KEY[0..b-1] and nothing else of memory (43_key_schedule.md R112). -/
theorem expandKey_congr {w : WordWidth} {m m' : Memory} (x : Nat) {p : Param}
    (h : ∀ i < p.b, m.read (keyBase + i) = m'.read (keyBase + i)) :
    expandKey w m x p = expandKey w m' x p := by
  rw [expandKey_eq, expandKey_eq, mixStart, mixStart, keyWords_congr _ _ h]

/-- Settles O30: the closed form gives the recurrence, and the key schedule reads KEY alone, which lies
below the S window. -/
theorem tableInitialisation : Obligations.TableInitialisation := by
  refine ⟨fun w t i hi => ⟨length_initEntries w t _, getD_initEntries _ hi, fun hi1 => ?_⟩,
    fun w m m' x p h hb => expandKey_congr x fun i hi => h _ (by unfold keyBase; omega)⟩
  rw [getD_initEntries _ hi1, getD_initEntries _ hi, ofNat_succ_mul, BitVec.add_assoc]

/-! ## The two setup commands -/

theorem setupOk_iff (s : State) : setupOk s ↔ setupValid s.width s.param = true :=
  (setupValid_iff s.width s.param).symm

/-- SETUP5 and SETUP6 are one key schedule with two values of x (43_key_schedule.md R104, R105). -/
theorem runOp_setup {op : EngineOp} {x : Nat} (h : setupExtra op = some x) (s : State) :
    runOp op s = keySchedule x s := by
  cases op <;> cases h <;> rfl

/-- No command writes the registers a completion keeps. -/
theorem completed_runOp (op : EngineOp) (s : State) : completed s (runOp op s).complete := by
  obtain ⟨hw, hc, hp, ho, hr, hd, hi, -, -, -, hill, hcoll⟩ := runOp_frame op s
  exact ⟨hw, hc, hp, ho, hr, hd, hi, rfl, rfl, hill, hcoll⟩

/-- The one write of a valid setup (43_key_schedule.md R110). -/
theorem keySchedule_mem {s : State} (x : Nat) (h : setupValid s.width s.param = true) :
    (keySchedule x s).mem = writeTable s.mem 0 (expandKey s.width s.mem x s.param).s := by
  rw [keySchedule, if_pos h]

theorem keySchedule_err {s : State} (x : Nat) (h : setupValid s.width s.param = true) :
    (keySchedule x s).status.err = s.status.err := by
  obtain ⟨-, -, -, -, -, -, -, -, -, hstatus⟩ := keySchedule_frame x s
  rw [hstatus, h, Bool.not_true, Bool.or_false]

theorem keySchedule_draws (x : Nat) (s : State) : (keySchedule x s).draws = s.draws := by
  obtain ⟨-, -, -, -, -, -, -, hdraws, -, -⟩ := keySchedule_frame x s
  exact hdraws

/-- A valid setup leaves the mixed values in S[0..t-1] (43_key_schedule.md R110). -/
theorem entry_keySchedule {s : State} {x k : Nat} (h : setupValid s.width s.param = true)
    (hk : k < tableLength x s.param) :
    entry s.width (keySchedule x s).mem.read k = (expandKey s.width s.mem x s.param).s.getD k 0 := by
  rw [entry_eq_sEntry, keySchedule_mem x h, sEntry_writeTable,
    if_pos (by rw [length_expandKey_s]; omega), Nat.sub_zero]

/-- A valid setup changes no byte below S[0] or from S[t] up. -/
theorem read_keySchedule_out {s : State} {x a : Nat} (h : setupValid s.width s.param = true)
    (ha : a < sBase ∨ sAddr s.width (tableLength x s.param) ≤ a) :
    (keySchedule x s).mem.read a = s.mem.read a := by
  rw [keySchedule_mem x h, read_writeTable_out]
  rwa [length_expandKey_s, Nat.zero_add]

/-- A valid setup changes no byte that belongs to none of S[0..t-1]. -/
theorem read_keySchedule_gap {s : State} {x a : Nat} (h : setupValid s.width s.param = true)
    (ha : ∀ k < tableLength x s.param, a < sAddr s.width k ∨ sAddr s.width k + s.width.bytes ≤ a) :
    (keySchedule x s).mem.read a = s.mem.read a := by
  rw [keySchedule_mem x h, read_writeTable_gap]
  intro k _ hk
  rw [length_expandKey_s, Nat.zero_add] at hk
  exact ha k hk

/-- Settles O35: a setup is `keySchedule`, whose one write is the table S[0..t-1], and then the completion
that every command shares. -/
theorem setupWriteSet : Obligations.SetupWriteSet := by
  intro s op x hx hok
  have hv := (setupOk_iff s).mp hok
  refine ⟨_, exec_op op s, completed_runOp op s, ?_⟩
  rw [runOp_setup hx]
  exact ⟨keySchedule_err x hv, keySchedule_draws x s, fun k hk => entry_keySchedule hv hk,
    fun a ha => read_keySchedule_out hv ha, fun a ha => read_keySchedule_gap hv ha⟩

/-- Settles O36: both tables hold the mixed values, and these depend on W, PARAM and KEY[0..b-1] alone. -/
theorem setupIsDeterministic : Obligations.SetupIsDeterministic := by
  intro s u op x hx hok hw hp hkey
  have hvs := (setupOk_iff s).mp hok
  have hvu : setupValid u.width u.param = true := by rw [hw, hp, hvs]
  have hexpand : expandKey s.width u.mem x s.param = expandKey s.width s.mem x s.param :=
    expandKey_congr x hkey
  refine ⟨_, _, exec_op op s, exec_op op u, fun k hk => ?_⟩
  rw [runOp_setup hx, runOp_setup hx]
  have hu : entry u.width (keySchedule x u).mem.read k = (expandKey u.width u.mem x u.param).s.getD k 0 :=
    entry_keySchedule hvu (hp.symm ▸ hk)
  rw [hw, hp, hexpand] at hu
  exact hu.trans (entry_keySchedule hvs hk).symm

end Machine
end Sys2Proof
end

section
/-! The statements of the family 44_rc5.md: RC5 with no round (R116), and that ENC5 and DEC5 undo each
other, the host's copy of the block included (R117). -/

namespace Sys2Proof.Machine

open Sys2Proof.Spec

/-! ## The block transform undone -/

/-- Each half-round ends by adding an entry to a rotation by the word it does not change, so the
undoing half-round knows the amount (44_rc5.md R117). -/
theorem rc5Unround_rc5Round {w : WordWidth} (key : Nat → Word w) (k : Nat) (v : Pair w) :
    rc5Unround key k (rc5Round key k v) = v := by
  simp only [rc5Unround, rc5Round, BitVec.add_sub_cancel, rotr_rotl, BitVec.xor_assoc, BitVec.xor_self,
    BitVec.xor_zero]

theorem rc5Round_rc5Unround {w : WordWidth} (key : Nat → Word w) (k : Nat) (v : Pair w) :
    rc5Round key k (rc5Unround key k v) = v := by
  simp only [rc5Unround, rc5Round, BitVec.sub_add_cancel, rotl_rotr, BitVec.xor_assoc, BitVec.xor_self,
    BitVec.xor_zero]

theorem rc5Unrounds_rc5Rounds {w : WordWidth} (key : Nat → Word w) (r : Nat) (v : Pair w) :
    rc5Unrounds key r (rc5Rounds key r v) = v := by
  induction r with
  | zero => rfl
  | succ r ih => rw [rc5Rounds, rc5Unrounds, rc5Unround_rc5Round, ih]

theorem rc5Rounds_rc5Unrounds {w : WordWidth} (key : Nat → Word w) (r : Nat) (v : Pair w) :
    rc5Rounds key r (rc5Unrounds key r v) = v := by
  induction r generalizing v with
  | zero => rfl
  | succ r ih => rw [rc5Rounds, rc5Unrounds, ih, rc5Round_rc5Unround]

theorem rc5Decrypt_rc5Encrypt {w : WordWidth} (key : Nat → Word w) (r : Nat) (p : Pair w) :
    rc5Decrypt key r (rc5Encrypt key r p) = p := by
  simp only [rc5Decrypt, rc5Encrypt, rc5Unrounds_rc5Rounds, BitVec.add_sub_cancel]

theorem rc5Encrypt_rc5Decrypt {w : WordWidth} (key : Nat → Word w) (r : Nat) (p : Pair w) :
    rc5Encrypt key r (rc5Decrypt key r p) = p := by
  simp only [rc5Decrypt, rc5Encrypt, BitVec.sub_add_cancel]
  exact rc5Rounds_rc5Unrounds key r p

/-! ## Which entries the transform uses -/

theorem rc5Rounds_congr {w : WordWidth} {key key' : Nat → Word w} {r : Nat} (v : Pair w)
    (h : ∀ k < 2 * r + 2, key k = key' k) : rc5Rounds key r v = rc5Rounds key' r v := by
  induction r with
  | zero => rfl
  | succ r ih =>
    rw [rc5Rounds, rc5Rounds, ih fun k hk => h k (by omega)]
    simp only [rc5Round, h (2 * r + 2) (by omega), h (2 * r + 3) (by omega)]

theorem rc5Unrounds_congr {w : WordWidth} {key key' : Nat → Word w} {r : Nat} (v : Pair w)
    (h : ∀ k < 2 * r + 2, key k = key' k) : rc5Unrounds key r v = rc5Unrounds key' r v := by
  induction r generalizing v with
  | zero => rfl
  | succ r ih =>
    rw [rc5Unrounds, rc5Unrounds, ih _ fun k hk => h k (by omega)]
    simp only [rc5Unround, h (2 * r + 2) (by omega), h (2 * r + 3) (by omega)]

/-- Encryption with r rounds uses the entries S[0..2r+1] alone (44_rc5.md R113). -/
theorem rc5Encrypt_congr {w : WordWidth} {key key' : Nat → Word w} {r : Nat} (p : Pair w)
    (h : ∀ k < 2 * r + 2, key k = key' k) : rc5Encrypt key r p = rc5Encrypt key' r p := by
  rw [rc5Encrypt, rc5Encrypt, rc5Rounds_congr _ h, h 0 (by omega), h 1 (by omega)]

/-- Decryption with r rounds uses the entries S[0..2r+1] alone (44_rc5.md R114). -/
theorem rc5Decrypt_congr {w : WordWidth} {key key' : Nat → Word w} {r : Nat} (p : Pair w)
    (h : ∀ k < 2 * r + 2, key k = key' k) : rc5Decrypt key r p = rc5Decrypt key' r p := by
  simp only [rc5Decrypt, rc5Unrounds_congr p h, h 0 (by omega), h 1 (by omega)]

/-! ## Words and two-word blocks as runs of bytes -/

/-- Two packed words are equal exactly when their bytes are, wherever they stand. -/
theorem packLE_eq_iff {w : WordWidth} {m m' : Memory} {a a' : Nat} :
    packLE w m a = packLE w m' a' ↔ ∀ i < w.bytes, m.read (a + i) = m'.read (a' + i) := by
  constructor
  · intro h i hi
    rw [← extractLsb'_packLE hi, h, extractLsb'_packLE hi]
  · intro h
    refine eq_of_bytes fun i hi => ?_
    rw [extractLsb'_packLE hi, extractLsb'_packLE hi, h i hi]

/-- Two blocks are equal exactly when their bytes are, wherever they stand. -/
theorem readPair_eq_iff {w : WordWidth} {m m' : Memory} {a a' : Nat} :
    readPair w m a = readPair w m' a' ↔ ∀ i < 2 * w.bytes, m.read (a + i) = m'.read (a' + i) := by
  simp only [readPair, Pair.mk.injEq, packLE_eq_iff, Nat.add_assoc]
  constructor
  · rintro ⟨ha, hb⟩ i hi
    by_cases hlt : i < w.bytes
    · exact ha i hlt
    · have hrest := hb (i - w.bytes) (by omega)
      rwa [Nat.add_sub_cancel' (by omega)] at hrest
  · exact fun h => ⟨fun i hi => h i (by omega), fun i hi => h (w.bytes + i) (by omega)⟩

/-- A word stands in BOUT exactly when it is the word packed there (41_datapath.md R90, R91). -/
theorem wordInBout_iff {w : WordWidth} {t : State} {off : Nat} {x : Word w} :
    wordInBout t off x ↔ packLE w t.mem (boutBase + off) = x := by
  constructor
  · intro h
    refine eq_of_bytes fun i hi => ?_
    rw [extractLsb'_packLE hi]
    exact h i hi
  · rintro rfl i hi
    exact (extractLsb'_packLE hi).symm

/-- The block in BIN is made of the spec's two words (41_datapath.md R90). -/
theorem readPair_bin (s : State) :
    readPair s.width s.mem binBase = { a := binWord s 0, b := binWord s 1 } := by
  rw [readPair, binWord, binWord, wordAt_eq_packLE, wordAt_eq_packLE, Nat.zero_mul, Nat.one_mul]

/-! ## The two commands -/

theorem inContract_iff (s : State) : inContract s ↔ cryptInContract s.width s.param = true :=
  (cryptInContract_iff s.width s.param).symm

/-- In contract the one write of `op` is the block `crypt` makes of BIN with the table S and r. -/
def CryptsPair (op : EngineOp) (crypt : {w : WordWidth} → (Nat → Word w) → Nat → Pair w → Pair w) : Prop :=
  ∀ s : State, inContract s → (runOp op s).mem =
    writePair s.mem boutBase (crypt (sEntry s.width s.mem) s.param.r (readPair s.width s.mem binBase))

theorem cryptsPair_enc5 : CryptsPair .enc5 rc5Encrypt := by
  intro s hs
  rw [runOp, runRc5Encrypt, if_pos ((inContract_iff s).mp hs)]

theorem cryptsPair_dec5 : CryptsPair .dec5 rc5Decrypt := by
  intro s hs
  rw [runOp, runRc5Decrypt, if_pos ((inContract_iff s).mp hs)]

section
variable {op back : EngineOp} {crypt uncrypt : {w : WordWidth} → (Nat → Word w) → Nat → Pair w → Pair w}

/-- The output block of a command that answers. -/
theorem CryptsPair.readPair_bout (h : CryptsPair op crypt) {s : State} (hs : inContract s) :
    readPair s.width (runOp op s).mem boutBase =
      crypt (sEntry s.width s.mem) s.param.r (readPair s.width s.mem binBase) := by
  rw [h s hs, readPair_writePair]

/-- BOUT lies below the S window: the table is left as it was. -/
theorem CryptsPair.sEntry_eq (h : CryptsPair op crypt) {s : State} (hs : inContract s) (k : Nat) :
    sEntry s.width (runOp op s).mem k = sEntry s.width s.mem k := by
  have hbytes := s.width.bytes_le
  rw [h s hs]
  refine packLE_congr fun i _ => read_writePair_out (.inr ?_)
  unfold sAddr boutBase sBase
  omega

/-- The command answers with the two words of its output block in BOUT. -/
theorem CryptsPair.exec_wordInBout (h : CryptsPair op crypt) {s : State} (hs : inContract s)
    {x y : Word s.width} (hxy : crypt (entry s.width s.mem.read) s.param.r
      { a := binWord s 0, b := binWord s 1 } = { a := x, b := y }) :
    ∃ t, exec op.instr s = .next t ∧ wordInBout t 0 x ∧ wordInBout t s.width.bytes y := by
  have hout := h.readPair_bout hs
  rw [readPair_bin, ← funext (entry_eq_sEntry s.width s.mem), hxy, readPair, Pair.mk.injEq] at hout
  obtain ⟨hx, hy⟩ := hout
  exact ⟨_, exec_op op s, wordInBout_iff.mpr hx, wordInBout_iff.mpr hy⟩

/-- A command undoes another one through any state that holds the entries used and has the output block
in BIN, if its transform undoes the other's and uses only S[0..2r+1]. -/
theorem CryptsPair.roundTrip (hop : CryptsPair op crypt) (hback : CryptsPair back uncrypt)
    (hundo : ∀ {w : WordWidth} (key : Nat → Word w) (r : Nat) (p : Pair w),
      uncrypt key r (crypt key r p) = p)
    (hcongr : ∀ {w : WordWidth} {key key' : Nat → Word w} {r : Nat} (p : Pair w),
      (∀ k < 2 * r + 2, key k = key' k) → uncrypt key r p = uncrypt key' r p)
    {s u : State} (hs : inContract s) (hw : u.width = s.width) (hp : u.param = s.param)
    (htable : ∀ k < 2 * s.param.r + 2,
      sEntry s.width u.mem k = sEntry s.width (runOp op s).mem k)
    (hblock : readPair s.width u.mem binBase = readPair s.width (runOp op s).mem boutBase) :
    readPair s.width (runOp back u).mem boutBase = readPair s.width s.mem binBase := by
  have hu : inContract u := by rwa [inContract_iff, hw, hp, ← inContract_iff]
  have hkey : ∀ k < 2 * s.param.r + 2, sEntry s.width u.mem k = sEntry s.width s.mem k :=
    fun k hk => (htable k hk).trans (hop.sEntry_eq hs k)
  have hout := hback.readPair_bout hu
  rw [hw, hp] at hout
  rw [hout, hblock, hop.readPair_bout hs, hcongr _ hkey, hundo]

end

/-- The two orders of R117. -/
theorem readPair_rc5RoundTrip {op back : EngineOp}
    (hops : (op, back) = (.enc5, .dec5) ∨ (op, back) = (.dec5, .enc5)) {s u : State}
    (hs : inContract s) (hw : u.width = s.width) (hp : u.param = s.param)
    (htable : ∀ k < 2 * s.param.r + 2,
      sEntry s.width u.mem k = sEntry s.width (runOp op s).mem k)
    (hblock : readPair s.width u.mem binBase = readPair s.width (runOp op s).mem boutBase) :
    readPair s.width (runOp back u).mem boutBase = readPair s.width s.mem binBase := by
  rcases hops with hops | hops <;> cases hops
  · exact cryptsPair_enc5.roundTrip cryptsPair_dec5 rc5Decrypt_rc5Encrypt rc5Decrypt_congr
      hs hw hp htable hblock
  · exact cryptsPair_dec5.roundTrip cryptsPair_enc5 rc5Encrypt_rc5Decrypt rc5Encrypt_congr
      hs hw hp htable hblock

/-- Settles O39: with r = 0 no round runs, and what is left of both transforms is the whitening. -/
theorem rc5WithZeroRounds : Obligations.Rc5WithZeroRounds := by
  intro s hs hpr
  have hr : s.param.r = 0 := by rw [Param.r, hpr]; rfl
  exact ⟨cryptsPair_enc5.exec_wordInBout hs (by rw [hr]; rfl),
    cryptsPair_dec5.exec_wordInBout hs (by rw [hr]; rfl)⟩

/-! ## The host's copy of the block -/

/-- The location with word index `0x90 + n` is BLK_OUT location n (20_memory.md R48). -/
theorem addr_blkOut {n : BitVec 12} (hn : n.toNat < 16) : addr (0x90 + n) = 0x240 + 4 * n.toNat := by
  unfold addr
  bv_omega

/-- The location with word index `0x80 + n` is BLK_IN location n (20_memory.md R47). -/
theorem addr_blkIn {n : BitVec 12} (hn : n.toNat < 16) : addr (0x80 + n) = 0x200 + 4 * n.toNat := by
  unfold addr
  bv_omega

/-- RDATA carries the bytes of the location through the lanes, and the write takes them back out of the
same lanes (20_memory.md R49). -/
theorem exec_copyBlkOut {s : State} {n : BitVec 12} (hs : idle s) (hn : n.toNat < 16) :
    ∃ t v, exec (.rd (0x90 + n) 0) s = .next t ∧ exec (.wr (0x80 + n) t.rdata) t = .next v ∧
      ∀ k < 4, v.mem.read (0x200 + 4 * n.toNat + k) = s.mem.read (0x240 + 4 * n.toNat + k) := by
  have hout := addr_blkOut hn
  have hin := addr_blkIn hn
  have ht : idle (busRead (0x90 + n) s) := by
    rw [busRead_byteWindow hs (.inr (by omega))]
    exact hs
  refine ⟨_, _, exec_rd _ _ s, exec_wr _ _ _, fun k hk => ?_⟩
  rw [busWrite_inputWindow _ ht (.inr (by omega)) (by omega),
    busRead_byteWindow hs (.inr (by omega)), hin, hout]
  exact (read_windowWrite_in s.mem _ _ s.ctrl.hbe hk).trans
    (extractLsb'_windowRead s.mem _ s.ctrl.hbe hk)

/-- Settles O40: each transform undoes the other with the entries S[0..2r+1], which neither command
writes; and the host's copy of one location. -/
theorem rc5RoundTrip : Obligations.Rc5RoundTrip := by
  refine ⟨fun op back s t u hops hs ht hw hp htable hblock => ?_, fun s n hs hn => exec_copyBlkOut hs hn⟩
  rw [exec_op] at ht
  cases ht
  obtain ⟨hwidth, -, hparam, -⟩ := completed_runOp op s
  refine ⟨_, exec_op back u, readPair_eq_iff.mp ?_⟩
  refine readPair_rc5RoundTrip hops hs (hw.trans hwidth) (hp.trans hparam) (fun k hk => ?_)
    (readPair_eq_iff.mpr hblock)
  rw [← entry_eq_sEntry, ← entry_eq_sEntry]
  exact htable k hk

end Sys2Proof.Machine
end

section
/-! The statements of the family 45_rc6.md: RC6 with no round (R121), and that ENC6 and DEC6 undo each
other (R122). -/

namespace Sys2Proof.Machine

open Sys2Proof.Spec

/-! ## The block transform undone

The two directions may use different tables: only the entries S[0..2r+3] have to agree. -/

/-- A round leaves B and D as they are but for their places, so the undoing round finds the same t and u
there (45_rc6.md R119). -/
theorem rc6Unround_rc6Round {w : WordWidth} {key key' : Nat → Word w} {k : Nat} (v : Quad w)
    (ha : key' (2 * k + 2) = key (2 * k + 2)) (hc : key' (2 * k + 3) = key (2 * k + 3)) :
    rc6Unround key' k (rc6Round key k v) = v := by
  simp only [rc6Unround, rc6Round, ha, hc, BitVec.add_sub_cancel, rotr_rotl, BitVec.xor_assoc,
    BitVec.xor_self, BitVec.xor_zero]

theorem rc6Round_rc6Unround {w : WordWidth} {key key' : Nat → Word w} {k : Nat} (v : Quad w)
    (ha : key' (2 * k + 2) = key (2 * k + 2)) (hc : key' (2 * k + 3) = key (2 * k + 3)) :
    rc6Round key' k (rc6Unround key k v) = v := by
  simp only [rc6Unround, rc6Round, ha, hc, BitVec.sub_add_cancel, rotl_rotr, BitVec.xor_assoc,
    BitVec.xor_self, BitVec.xor_zero]

theorem rc6Unrounds_rc6Rounds {w : WordWidth} {key key' : Nat → Word w} {r : Nat} (v : Quad w)
    (h : ∀ k < 2 * r + 2, key' k = key k) : rc6Unrounds key' r (rc6Rounds key r v) = v := by
  induction r with
  | zero => rfl
  | succ r ih =>
    rw [rc6Rounds, rc6Unrounds, rc6Unround_rc6Round _ (h _ (by omega)) (h _ (by omega)),
      ih fun k hk => h k (by omega)]

theorem rc6Rounds_rc6Unrounds {w : WordWidth} {key key' : Nat → Word w} {r : Nat} (v : Quad w)
    (h : ∀ k < 2 * r + 2, key' k = key k) : rc6Rounds key' r (rc6Unrounds key r v) = v := by
  induction r generalizing v with
  | zero => rfl
  | succ r ih =>
    rw [rc6Rounds, rc6Unrounds, ih _ fun k hk => h k (by omega),
      rc6Round_rc6Unround _ (h _ (by omega)) (h _ (by omega))]

/-- A transform of four-word blocks, from the table and the number of rounds. -/
abbrev QuadCrypt : Type := {w : WordWidth} → (Nat → Word w) → Nat → Quad w → Quad w

/-- `uncrypt` undoes `crypt` with every table that has the same entries S[0..2r+3]. -/
def Undoes (uncrypt crypt : QuadCrypt) : Prop :=
  ∀ {w : WordWidth} {key key' : Nat → Word w} {r : Nat} (p : Quad w),
    (∀ k < 2 * r + 4, key' k = key k) → uncrypt key' r (crypt key r p) = p

theorem rc6Decrypt_undoes : Undoes rc6Decrypt rc6Encrypt := by
  intro w key key' r p h
  have hrounds (v : Quad w) : rc6Unrounds key' r (rc6Rounds key r v) = v :=
    rc6Unrounds_rc6Rounds v fun k hk => h k (by omega)
  simp only [rc6Decrypt, rc6Encrypt, h 0 (by omega), h 1 (by omega), h (2 * r + 2) (by omega),
    h (2 * r + 3) (by omega), BitVec.add_sub_cancel, hrounds]

theorem rc6Encrypt_undoes : Undoes rc6Encrypt rc6Decrypt := by
  intro w key key' r p h
  have hrounds (v : Quad w) : rc6Rounds key' r (rc6Unrounds key r v) = v :=
    rc6Rounds_rc6Unrounds v fun k hk => h k (by omega)
  simp only [rc6Decrypt, rc6Encrypt, h 0 (by omega), h 1 (by omega), h (2 * r + 2) (by omega),
    h (2 * r + 3) (by omega), BitVec.sub_add_cancel, hrounds]

/-! ## Four-word blocks as runs of bytes -/

/-- A block of four words is two blocks of two. -/
theorem readQuad_eq_iff_readPair {w : WordWidth} {m m' : Memory} {a a' : Nat} :
    readQuad w m a = readQuad w m' a' ↔ readPair w m a = readPair w m' a' ∧
      readPair w m (a + 2 * w.bytes) = readPair w m' (a' + 2 * w.bytes) := by
  have hd (a : Nat) : a + 3 * w.bytes = a + 2 * w.bytes + w.bytes := by omega
  simp only [readQuad, readPair, Quad.mk.injEq, Pair.mk.injEq, hd, and_assoc]

/-- Two blocks are equal exactly when their bytes are, wherever they stand. -/
theorem readQuad_eq_iff {w : WordWidth} {m m' : Memory} {a a' : Nat} :
    readQuad w m a = readQuad w m' a' ↔ ∀ i < 4 * w.bytes, m.read (a + i) = m'.read (a' + i) := by
  simp only [readQuad_eq_iff_readPair, readPair_eq_iff, Nat.add_assoc]
  constructor
  · rintro ⟨hlow, hhigh⟩ i hi
    by_cases hlt : i < 2 * w.bytes
    · exact hlow i hlt
    · have hrest := hhigh (i - 2 * w.bytes) (by omega)
      rwa [Nat.add_sub_cancel' (by omega)] at hrest
  · exact fun h => ⟨fun i hi => h i (by omega), fun i hi => h (2 * w.bytes + i) (by omega)⟩

/-- The block in BIN is made of the spec's four words (41_datapath.md R90). -/
theorem readQuad_bin (s : State) : readQuad s.width s.mem binBase =
    { a := binWord s 0, b := binWord s 1, c := binWord s 2, d := binWord s 3 } := by
  simp only [readQuad, binWord, wordAt_eq_packLE, Nat.zero_mul, Nat.one_mul, Nat.add_zero, binBase]

/-! ## The two commands -/

/-- In contract the one write of `op` is the block `crypt` makes of BIN with the table S and r. -/
def CryptsQuad (op : EngineOp) (crypt : QuadCrypt) : Prop :=
  ∀ s : State, inContract s → (runOp op s).mem =
    writeQuad s.mem boutBase (crypt (sEntry s.width s.mem) s.param.r (readQuad s.width s.mem binBase))

theorem cryptsQuad_enc6 : CryptsQuad .enc6 rc6Encrypt := by
  intro s hs
  rw [runOp, runRc6Encrypt, if_pos ((inContract_iff s).mp hs)]

theorem cryptsQuad_dec6 : CryptsQuad .dec6 rc6Decrypt := by
  intro s hs
  rw [runOp, runRc6Decrypt, if_pos ((inContract_iff s).mp hs)]

section
variable {op back : EngineOp} {crypt uncrypt : QuadCrypt}

/-- The output block of a command that answers. -/
theorem CryptsQuad.readQuad_bout (h : CryptsQuad op crypt) {s : State} (hs : inContract s) :
    readQuad s.width (runOp op s).mem boutBase =
      crypt (sEntry s.width s.mem) s.param.r (readQuad s.width s.mem binBase) := by
  rw [h s hs, readQuad_writeQuad]

/-- BOUT lies below the S window: the table is left as it was. -/
theorem CryptsQuad.sEntry_eq (h : CryptsQuad op crypt) {s : State} (hs : inContract s) (k : Nat) :
    sEntry s.width (runOp op s).mem k = sEntry s.width s.mem k := by
  have hbytes := s.width.bytes_le
  rw [h s hs]
  refine packLE_congr fun i _ => read_writeQuad_out (.inr ?_)
  unfold sAddr boutBase sBase
  omega

/-- The command answers with the four words of its output block in BOUT. -/
theorem CryptsQuad.exec_wordInBout (h : CryptsQuad op crypt) {s : State} (hs : inContract s)
    {x : Quad s.width} (hx : crypt (entry s.width s.mem.read) s.param.r
      { a := binWord s 0, b := binWord s 1, c := binWord s 2, d := binWord s 3 } = x) :
    ∃ t, exec op.instr s = .next t ∧ wordInBout t 0 x.a ∧ wordInBout t s.width.bytes x.b ∧
      wordInBout t (2 * s.width.bytes) x.c ∧ wordInBout t (3 * s.width.bytes) x.d := by
  have hout := h.readQuad_bout hs
  rw [readQuad_bin, ← funext (entry_eq_sEntry s.width s.mem), hx] at hout
  subst hout
  exact ⟨_, exec_op op s, wordInBout_iff.mpr rfl, wordInBout_iff.mpr rfl, wordInBout_iff.mpr rfl,
    wordInBout_iff.mpr rfl⟩

/-- A command undoes another one through any state that holds the entries used and has the output block
in BIN, if its transform undoes the other's. -/
theorem CryptsQuad.roundTrip (hop : CryptsQuad op crypt) (hback : CryptsQuad back uncrypt)
    (hundo : Undoes uncrypt crypt) {s u : State} (hs : inContract s) (hw : u.width = s.width)
    (hp : u.param = s.param)
    (htable : ∀ k < 2 * s.param.r + 4, sEntry s.width u.mem k = sEntry s.width (runOp op s).mem k)
    (hblock : readQuad s.width u.mem binBase = readQuad s.width (runOp op s).mem boutBase) :
    readQuad s.width (runOp back u).mem boutBase = readQuad s.width s.mem binBase := by
  have hu : inContract u := by rwa [inContract_iff, hw, hp, ← inContract_iff]
  have hout := hback.readQuad_bout hu
  rw [hw, hp, hblock, hop.readQuad_bout hs] at hout
  exact hout.trans (hundo _ fun k hk => (htable k hk).trans (hop.sEntry_eq hs k))

end

/-- Settles O43: with r = 0 no round runs, and what is left of both transforms is the four additions or
subtractions. -/
theorem rc6WithZeroRounds : Obligations.Rc6WithZeroRounds := by
  intro s hs hpr
  have hr : s.param.r = 0 := by rw [Param.r, hpr]; rfl
  have henc := cryptsQuad_enc6.exec_wordInBout hs rfl
  have hdec := cryptsQuad_dec6.exec_wordInBout hs rfl
  rw [hr] at henc hdec
  exact ⟨henc, hdec⟩

/-- Settles O44: each transform undoes the other with the entries S[0..2r+3], which neither command
writes. -/
theorem rc6RoundTrip : Obligations.Rc6RoundTrip := by
  intro op back s t u hops hs ht hw hp htable hblock
  rw [exec_op] at ht
  cases ht
  obtain ⟨hwidth, -, hparam, -⟩ := completed_runOp op s
  simp only [entry_eq_sEntry] at htable
  refine ⟨_, exec_op back u, readQuad_eq_iff.mp ?_⟩
  rcases hops with hops | hops <;> cases hops
  · exact cryptsQuad_enc6.roundTrip cryptsQuad_dec6 rc6Decrypt_undoes hs (hw.trans hwidth)
      (hp.trans hparam) htable (readQuad_eq_iff.mpr hblock)
  · exact cryptsQuad_dec6.roundTrip cryptsQuad_enc6 rc6Encrypt_undoes hs (hw.trans hwidth)
      (hp.trans hparam) htable (readQuad_eq_iff.mpr hblock)

end Sys2Proof.Machine
end

section
/-! The statements of the family 60_exceptions.md: collisions (R126) and the interrupt output (R128). -/

namespace Sys2Proof.Machine

open Sys2Proof.Spec

/-! ## Guarded locations -/

/-- A register has one location (20_memory.md R44). CFG, which no event here needs, is left out. -/
theorem region_eq_iff {w : WordWidth} {q k : BitVec 12} (hk : k = 1 ∨ k = 2 ∨ k = 3 ∨ k = 4) :
    region w q = region w k ↔ q = k := by
  refine ⟨fun h => ?_, fun h => h ▸ rfl⟩
  rcases hk with rfl | rfl | rfl | rfl <;>
    simp only [region_ctrl, region_param, region_cmd, region_status] at h <;>
    simpa [h] using region_cases w q

theorem region_eq_ctrl_iff {w : WordWidth} {q : BitVec 12} : region w q = .ctrl ↔ q = 1 :=
  region_ctrl w ▸ region_eq_iff (by decide)

theorem region_eq_param_iff {w : WordWidth} {q : BitVec 12} : region w q = .param ↔ q = 2 :=
  region_param w ▸ region_eq_iff (by decide)

theorem region_eq_cmd_iff {w : WordWidth} {q : BitVec 12} : region w q = .cmd ↔ q = 3 :=
  region_cmd w ▸ region_eq_iff (by decide)

theorem region_eq_status_iff {w : WordWidth} {q : BitVec 12} : region w q = .status ↔ q = 4 :=
  region_status w ▸ region_eq_iff (by decide)

/-- Reads collide on KEY, BLK_IN, BLK_OUT and the mapped part of S (40_host_port.md R77). -/
theorem readGuarded_iff {w : WordWidth} {q : BitVec 12} :
    (region w q).readGuarded = true ↔ inByteWindow q ∨ inSWindow w q := by
  unfold inByteWindow inSWindow addr
  constructor
  · intro h
    have haddr := region_cases w q
    cases hr : region w q <;>
      simp [hr, Region.readGuarded, keyBase, binBase, boutBase, sBase, smax] at h haddr
    case sWin n =>
      obtain ⟨hq, hn⟩ := haddr
      have hslice : (4 * q.toNat - 0x2000) / 4 = n := by omega
      exact .inr ⟨by omega, by rwa [hslice]⟩
    all_goals omega
  · rintro (h | ⟨hle, hlt⟩)
    · rcases region_byteWindow (w := w) h with ⟨n, hr, -⟩ | ⟨n, hr, -⟩ | ⟨n, hr, -⟩ <;> (rw [hr]; rfl)
    · have haddr : 4 * q.toNat = 0x2000 + 4 * ((4 * q.toNat - 0x2000) / 4) := by omega
      rw [region_sWindow haddr, if_pos hlt]
      rfl

theorem Region.writeGuarded_iff {r : Region} :
    r.writeGuarded = true ↔ r = .param ∨ r = .cmd ∨ r.readGuarded = true := by
  cases r <;> simp [Region.writeGuarded, Region.readGuarded]

/-- Writes collide there and on PARAM and CMD as well (40_host_port.md R77). -/
theorem writeGuarded_iff {w : WordWidth} {q : BitVec 12} :
    (region w q).writeGuarded = true ↔ q = 2 ∨ q = 3 ∨ inByteWindow q ∨ inSWindow w q := by
  rw [Region.writeGuarded_iff, region_eq_param_iff, region_eq_cmd_iff, readGuarded_iff]

/-! ## CTRL and STATUS writes -/

/-- CTRL is not guarded: its write is performed in flight too. -/
theorem busWrite_ctrl {s : State} (d : BusWord) (hr : s.rst = false) :
    busWrite 1 d s = { s with ctrl := Ctrl.ofWord d } := by
  rw [busWrite_eq hr (.inr (by rw [region_ctrl]; rfl)), region_ctrl]
  rfl

/-- STATUS is not guarded: its write is performed in flight too. -/
theorem busWrite_status {s : State} (d : BusWord) (hr : s.rst = false) :
    busWrite 4 d s = { s with status := s.status.writeOneToClear d } := by
  rw [busWrite_eq hr (.inr (by rw [region_status]; rfl)), region_status]
  rfl

/-! ## COLL along a step -/

/-- What makes a read of q collide, by address (40_host_port.md R77). -/
def readCollides (s : State) (q : BitVec 12) : Prop :=
  inFlight s ∧ (inByteWindow q ∨ inSWindow s.width q)

/-- What makes a write of q collide, by address (40_host_port.md R77). -/
def writeCollides (s : State) (q : BitVec 12) : Prop :=
  inFlight s ∧ (q = 2 ∨ q = 3 ∨ inByteWindow q ∨ inSWindow s.width q)

theorem busRead_of_collides {s : State} {q : BitVec 12} (h : readCollides s q) :
    busRead q s = { s.setColl with rdata := 0 } := by
  obtain ⟨⟨hr, hb⟩, hq⟩ := h
  exact busRead_collides hr hb (readGuarded_iff.mpr hq)

theorem busWrite_of_collides {s : State} {q : BitVec 12} (d : BusWord) (h : writeCollides s q) :
    busWrite q d s = s.setColl := by
  obtain ⟨⟨hr, hb⟩, hq⟩ := h
  exact busWrite_collides hr hb (writeGuarded_iff.mpr hq)

theorem engineTurn_coll {s t : State} (h : engineTurn s = .next t) : t.status.coll = s.status.coll := by
  rcases engineTurn_cases s with ⟨-, -, op, -, ht⟩ | ⟨-, -, -, ht⟩ | ⟨-, ht⟩ <;> (rw [ht] at h; cases h)
  · obtain ⟨-, -, -, -, -, -, -, -, -, -, hcoll⟩ := completed_runOp op s
    exact hcoll
  · rfl
  · rfl

theorem busRead_coll (q : BitVec 12) (s : State) :
    (busRead q s).status.coll = s.status.coll ∨ readCollides s q := by
  rcases busRead_cases q s with ⟨v, h⟩ | ⟨hr, hb, hg, -⟩
  · exact .inl (by rw [h])
  · exact .inr ⟨⟨hr, hb⟩, readGuarded_iff.mp hg⟩

/-- A write keeps COLL, collides, or is one of STATUS, which clears what is written 1 (10_state.md R30). -/
theorem busWrite_coll (q : BitVec 12) (d : BusWord) (s : State) :
    (busWrite q d s).status.coll = s.status.coll ∨ writeCollides s q ∨
    (q = 4 ∧ (busWrite q d s).status.coll = (s.status.coll && !d.getLsbD 4)) := by
  rcases busWrite_cases q d s with ⟨-, h⟩ | ⟨hr, hb, hg, -⟩ | ⟨hr, -, h⟩
  · exact .inl (by rw [h])
  · exact .inr (.inl ⟨⟨hr, hb⟩, writeGuarded_iff.mp hg⟩)
  · by_cases hq : q = 4
    · subst hq
      exact .inr (.inr ⟨rfl, by rw [busWrite_status d hr]; rfl⟩)
    · exact .inl (by rw [h, writeRegion_coll (mt region_eq_status_iff.mp hq)])

/-- All that a step can do to COLL (60_exceptions.md R126). -/
theorem step_coll_cases {s t : State} (h : step s = .next t) :
    t.status.coll = s.status.coll ∨
    (s.inputs.head? = some (.rst true) ∧ t.status.coll = false) ∨
    (∃ q d, reading s q d ∧ readCollides s q ∧ t.status.coll = true) ∨
    (∃ q d, writing s q d ∧ writeCollides s q ∧ t.status.coll = true) ∨
    (∃ d, writing s 4 d ∧ t.status.coll = (s.status.coll && !d.getLsbD 4)) := by
  rcases step_cases h with ⟨-, ht⟩ | ⟨x, rest, hin, hx⟩
  · exact .inl (engineTurn_coll ht)
  · have hhead : s.inputs.head? = some x := by rw [hin]; rfl
    rcases hx with ⟨-, ht⟩ | ⟨rfl, rfl⟩ | ⟨-, rfl⟩ | ⟨w, q, d, rfl, hw, rfl⟩ | ⟨w, q, d, rfl, hw, rfl⟩
    · exact .inl (engineTurn_coll (s := { s with inputs := rest }) ht)
    · exact .inr (.inl ⟨hhead, rfl⟩)
    · exact .inl rfl
    · rcases busRead_coll q { s with inputs := rest } with hk | hc
      · exact .inl hk
      · exact .inr (.inr (.inl ⟨q, d, ⟨w, hhead, hw⟩, hc, by rw [busRead_of_collides hc]; rfl⟩))
    · rcases busWrite_coll q d { s with inputs := rest } with hk | hc | ⟨rfl, hk⟩
      · exact .inl hk
      · exact .inr (.inr (.inr (.inl
          ⟨q, d, ⟨w, hhead, hw⟩, hc, by rw [busWrite_of_collides d hc]; rfl⟩)))
      · exact .inr (.inr (.inr (.inr ⟨d, ⟨w, hhead, hw⟩, hk⟩)))

/-- A clock edge with rst = 1 always answers (70_reset_and_hazards.md R141). -/
theorem step_rst_true {s : State} (h : s.inputs.head? = some (.rst true)) :
    ∃ rest, step s = .next (applyReset { s with inputs := rest }) := by
  obtain ⟨rest, hin⟩ := List.head?_eq_some_iff.mp h
  exact ⟨rest, by rw [step, hin]; rfl⟩

/-- Settles O20: the guards are the listed locations, a collision is `setColl` alone, and a step moves COLL
only in the ways of `step_coll_cases`. -/
theorem collisionIsStickyAndHarmless : Obligations.CollisionIsStickyAndHarmless := by
  refine ⟨fun s q d hs hq => ?_, fun s q d hs hq => ?_, fun s t h hcoll hclear => ?_,
    fun s t h hclear hcoll => ?_, fun s d t hr hd h => ?_, fun s t hrst h => ?_⟩
  · rw [exec_rd, busRead_of_collides ⟨hs, hq⟩]
    rfl
  · rw [exec_wr, busWrite_of_collides d ⟨hs, hq⟩]
    rfl
  · rcases step_coll_cases h with
      hk | ⟨hrst, -⟩ | ⟨q, d, -, -, hset⟩ | ⟨q, d, -, -, hset⟩ | ⟨d, hwr, hk⟩
    · simp [hk, hcoll] at hclear
    · exact .inr hrst
    · simp [hset] at hclear
    · simp [hset] at hclear
    · exact .inl ⟨d, hwr, by simpa [hk, hcoll] using hclear⟩
  · rcases step_coll_cases h with
      hk | ⟨-, hk⟩ | ⟨q, d, hrd, ⟨hs, hq⟩, -⟩ | ⟨q, d, hwr, ⟨hs, hq⟩, -⟩ | ⟨d, -, hk⟩
    · simp [hk, hclear] at hcoll
    · simp [hk] at hcoll
    · exact ⟨hs, .inl ⟨q, d, hrd, hq⟩⟩
    · exact ⟨hs, .inr ⟨q, d, hwr, hq⟩⟩
    · simp [hk, hclear] at hcoll
  · rw [exec_wr, busWrite_status d hr] at h
    cases h
    simp [Status.writeOneToClear, hd]
  · obtain ⟨rest, hstep⟩ := step_rst_true hrst
    rw [hstep] at h
    cases h
    rfl

/-! ## The interrupt output -/

/-- irq depends on CTRL and STATUS alone. -/
theorem State.irq_congr {s t : State} (hc : t.ctrl = s.ctrl) (hs : t.status = s.status) : t.irq = s.irq := by
  rw [State.irq, State.irq, hc, hs]

@[simp] theorem State.setColl_irq (s : State) : s.setColl.irq = s.irq := rfl

/-- irq after an engine command's completion (42_control.md R99). -/
theorem runOp_complete_irq (op : EngineOp) (s : State) : (runOp op s).complete.irq = s.ctrl.ie := by
  obtain ⟨-, hctrl, -, -, -, -, -, -, hdone, -⟩ := completed_runOp op s
  rw [State.irq, hctrl, hdone, Bool.and_true]

/-- irq after the immediate completion of an illegal word (42_control.md R98). -/
theorem State.setIllegal_irq (s : State) : s.setIllegal.irq = s.ctrl.ie := Bool.and_true _

/-- irq after the immediate completion of NOP (42_control.md R97). -/
theorem State.setDone_irq (s : State) : s.setDone.irq = s.ctrl.ie := Bool.and_true _

/-- Acceptance clears DONE, and latching leaves it clear (42_control.md R96). -/
theorem State.clearForAccept_latch_irq (s : State) (op : EngineOp) :
    (s.clearForAccept.latch op).irq = false := Bool.and_false _

theorem accept_opWord (op : EngineOp) (s : State) :
    accept (opWord op) s = s.clearForAccept.latch op := by
  cases op <;> rfl

theorem exec_nop_idle {s : State} (hs : idle s) : exec .nop s = .next s.clearForAccept.setDone := by
  obtain ⟨hr, hb⟩ := hs
  simp [exec, execNop, hr, hb]

theorem busRead_irq (q : BitVec 12) (s : State) : (busRead q s).irq = s.irq := by
  rcases busRead_cases q s with ⟨v, h⟩ | ⟨-, -, -, h⟩ <;> rw [h] <;> rfl

/-- Only writes of CTRL, CMD and STATUS move irq. -/
theorem busWrite_irq {s : State} {q : BitVec 12} (d : BusWord) (h1 : q ≠ 1) (h3 : q ≠ 3) (h4 : q ≠ 4) :
    (busWrite q d s).irq = s.irq := by
  rcases busWrite_cases q d s with ⟨-, h⟩ | ⟨-, -, -, h⟩ | ⟨-, -, h⟩
  · rw [h]
  · rw [h, State.setColl_irq]
  · rw [h]
    exact State.irq_congr (writeRegion_ctrl (mt region_eq_ctrl_iff.mp h1))
      (writeRegion_status (mt region_eq_cmd_iff.mp h3) (mt region_eq_status_iff.mp h4))

/-- Settles O22: each event has its own lemma; a completion and an illegal word or NOP set DONE, acceptance
of an engine command and reset clear it. -/
theorem interruptFollowsCompletion : Obligations.InterruptFollowsCompletion := by
  refine ⟨fun s => rfl, fun s op t h => ?_, fun s op t hs h => ?_, fun s d e t hs hd h => ?_,
    fun s t hrst h => ?_, fun s t hs h => ?_, fun s d t hr h => ?_, fun s d t hr h => ?_,
    fun s q d t h1 h3 h4 h => ?_, fun s q d t h => ?_⟩
  · rw [exec_op] at h
    cases h
    exact runOp_complete_irq op s
  · rw [exec_wr, busWrite_cmd _ hs, accept_opWord] at h
    cases h
    exact s.clearForAccept_latch_irq op
  · rw [exec_wr, busWrite_cmd d hs, accept_illegal hd] at h
    cases h
    exact s.clearForAccept.setIllegal_irq
  · obtain ⟨rest, hstep⟩ := step_rst_true hrst
    rw [hstep] at h
    cases h
    rfl
  · rw [exec_nop_idle hs] at h
    cases h
    exact s.clearForAccept.setDone_irq
  · rw [exec_wr, busWrite_ctrl d hr] at h
    cases h
    rfl
  · rw [exec_wr, busWrite_status d hr] at h
    cases h
    exact (Bool.and_assoc _ _ _).symm
  · cases h
    exact busWrite_irq d h1 h3 h4
  · cases h
    exact busRead_irq q s

end Sys2Proof.Machine
end

section
/-! The statements about the encoding of 30_encoding.md: decoding and encoding undo each other, and the
words written out from the tables. -/

namespace Sys2Proof.Machine

/-! ## Transaction words -/

/-- The three fields of a transaction word make up the whole word (30_encoding.md R70). -/
theorem transactionWord_fields (t : BitVec 45) :
    transactionWord (BitVec.ofBool (t.getLsbD 44)) (t.extractLsb' 32 12) (t.extractLsb' 0 32) = t := by
  have hwe : BitVec.ofBool (t.getLsbD 44) = t.extractLsb' 44 1 := by
    apply BitVec.eq_of_getLsbD_eq
    intro i hi
    obtain rfl : i = 0 := by omega
    simp
  have hhigh : t.extractLsb' 44 1 ++ t.extractLsb' 32 12 = t.extractLsb' 32 13 :=
    BitVec.extractLsb'_append_extractLsb'_eq_extractLsb' rfl
  have hall : t.extractLsb' 32 13 ++ t.extractLsb' 0 32 = t.extractLsb' 0 45 :=
    BitVec.extractLsb'_append_extractLsb'_eq_extractLsb' rfl
  rw [transactionWord, hwe, hhigh]
  exact hall.trans BitVec.extractLsb'_eq_self

theorem encode_decodeTransaction (t : BitVec 45) : encode (decodeTransaction t) = (45, t.toNat) := by
  have ht := transactionWord_fields t
  unfold decodeTransaction
  cases hwe : t.getLsbD 44 with
  | true =>
    rw [hwe] at ht
    exact congrArg (fun u : BitVec 45 => (45, u.toNat)) ht
  | false =>
    rw [hwe] at ht
    exact congrArg (fun u : BitVec 45 => (45, u.toNat)) ht

/-- The words of the opcode map are those of `encode` (30_encoding.md R65). -/
theorem encode_opcodeMap : ∀ p ∈ opcodeMap, encode p.2 = (32, p.1.toNat) := by decide

/-- Settles O1: a command word is a row of the opcode map, and the fields of a transaction word come
back. -/
theorem decodeOfEncode : Obligations.DecodeOfEncode := by
  intro i
  cases i with
  | rd q data => exact (decodeWord_transaction _).trans (congrArg _ (decodeTransaction_append false q data))
  | wr q data => exact (decodeWord_transaction _).trans (congrArg _ (decodeTransaction_append true q data))
  | nop | setup5 | setup6 | enc5 | dec5 | enc6 | dec6 => rfl

/-- The answers of `decodeWord`: a command word of the opcode map, or any transaction word. -/
theorem decodeWord_eq_ok {n w : Nat} {i : Instr} (h : decodeWord n w = .ok i) :
    (n = 32 ∧ ∃ d : BusWord, d.toNat = w ∧ (d, i) ∈ opcodeMap) ∨
    (n = 45 ∧ ∃ t : BitVec 45, t.toNat = w ∧ decodeTransaction t = i) := by
  unfold decodeWord at h
  split at h
  · rename_i hn
    split at h
    · rename_i hw
      exact .inl ⟨hn, BitVec.ofNat 32 w, Nat.mod_eq_of_lt hw, decodeCommand_eq_ok_iff.mp h⟩
    · cases h
  · split at h
    · rename_i hn
      split at h
      · rename_i hw
        exact .inr ⟨hn, BitVec.ofNat 45 w, Nat.mod_eq_of_lt hw, Except.ok.inj h⟩
      · cases h
    · cases h

/-- Settles O2: a word that decodes is a command word of the opcode map or a transaction word, and
each is the word of what it decodes to. -/
theorem encodeOfDecode : Obligations.EncodeOfDecode := by
  intro n w i h
  rcases decodeWord_eq_ok h with ⟨rfl, d, rfl, hd⟩ | ⟨rfl, t, rfl, rfl⟩
  · exact encode_opcodeMap _ hd
  · exact encode_decodeTransaction t

/-- Settles O4: each word is evaluated. -/
theorem writtenWordsDecode : Obligations.WrittenWordsDecode := by
  unfold Obligations.WrittenWordsDecode
  decide

end Sys2Proof.Machine
end

section
/-! What the ENGINE writes: the one write of each command, by its kind, and what a reset leaves of it. The
statements about commands and about the whole machine rest on these facts. -/

namespace Sys2Proof.Machine

open Sys2Proof.Spec

/-! ## The two kinds of command -/

/-- OPL holds a setup or a crypt command (10_state.md R37). -/
theorem setup_or_crypt (op : EngineOp) :
    (∃ x, setupExtra op = some x) ∨ ∃ n, cryptWords op = some n := by
  cases op
  case setup5 | setup6 => exact .inl ⟨_, rfl⟩
  case enc5 | dec5 | enc6 | dec6 => exact .inr ⟨_, rfl⟩

theorem setupExtra_le {op : EngineOp} {x : Nat} (h : setupExtra op = some x) : 2 ≤ x ∧ x ≤ 4 := by
  cases op <;> cases h <;> decide

/-- A block has at most four words (00_scope.md R13). -/
theorem cryptWords_le {op : EngineOp} {n : Nat} (h : cryptWords op = some n) : n ≤ 4 := by
  cases op <;> cases h <;> decide

theorem setupExtra_of_cryptWords {op : EngineOp} {n : Nat} (h : cryptWords op = some n) :
    setupExtra op = none := by
  cases op <;> cases h <;> rfl

/-- The table of a valid setup fits the key-table RAM (00_scope.md R11): r is a multiple of 4 below 256. -/
theorem tableLength_le {w : WordWidth} {p : Param} (x : Nat) (h : setupValid w p = true) :
    tableLength x p ≤ 504 + x := by
  obtain ⟨-, hr, hr4, -⟩ := (setupValid_iff w p).mp h
  unfold tableLength
  omega

theorem tableLength_le_smax {w : WordWidth} {p : Param} {x : Nat} (h : setupValid w p = true)
    (hx : x ≤ 4) : tableLength x p ≤ smax :=
  (tableLength_le x h).trans (Nat.add_le_add_left hx 504)

/-! ## Completions -/

theorem keySchedule_invalid {s : State} (x : Nat) (h : setupValid s.width s.param = false) :
    keySchedule x s = s.setErr := by
  rw [keySchedule, h]
  rfl

/-- What a crypt command can do: in contract it writes one block to BOUT and its words to the hidden
registers, out of contract it leaves free bytes there (42_control.md R101). -/
theorem runOp_crypt_cases {op : EngineOp} {n : Nat} (h : cryptWords op = some n) (s : State) :
    (inContract s ∧ ∃ (vs : List Byte) (hid : Hidden), vs.length = n * s.width.bytes ∧
      runOp op s = { s with mem := s.mem.writeBytes boutBase vs, hidden := hid }) ∨
    (¬ inContract s ∧ runOp op s = arbitraryBlock (blockBytes n s.width) s) := by
  rw [inContract_iff]
  by_cases hc : cryptInContract s.width s.param = true
  · refine .inl ⟨hc, ?_⟩
    cases op <;> cases h <;> refine ⟨_, _, ?_, if_pos hc⟩
    all_goals
      simp only [List.length_append, length_wordBytes]
      omega
  · refine .inr ⟨hc, ?_⟩
    cases op <;> cases h <;> exact if_neg hc

theorem runOp_crypt_mem {op : EngineOp} {n : Nat} (h : cryptWords op = some n) (s : State) :
    ∃ vs : List Byte, vs.length = n * s.width.bytes ∧ (runOp op s).mem = s.mem.writeBytes boutBase vs := by
  rcases runOp_crypt_cases h s with ⟨-, vs, hid, hlen, hop⟩ | ⟨-, hop⟩
  · exact ⟨vs, hlen, by rw [hop]⟩
  · exact ⟨_, length_drawBytes _ _ _, by rw [hop]; rfl⟩

/-- No crypt command sets ERR (42_control.md R101). -/
theorem runOp_crypt_status {op : EngineOp} {n : Nat} (h : cryptWords op = some n) (s : State) :
    (runOp op s).status = s.status := by
  rcases runOp_crypt_cases h s with ⟨-, vs, hid, -, hop⟩ | ⟨-, hop⟩ <;> rw [hop]
  rfl

/-- In contract a crypt command takes no free draw. -/
theorem runOp_crypt_draws {op : EngineOp} {n : Nat} (h : cryptWords op = some n) {s : State}
    (hs : inContract s) : (runOp op s).draws = s.draws := by
  rcases runOp_crypt_cases h s with ⟨-, vs, hid, -, hop⟩ | ⟨hout, -⟩
  · rw [hop]
  · exact absurd hs hout

theorem runOp_outOfContract {op : EngineOp} {n : Nat} (h : cryptWords op = some n) {s : State}
    (hs : ¬ inContract s) : runOp op s = arbitraryBlock (blockBytes n s.width) s := by
  rcases runOp_crypt_cases h s with ⟨hin, -⟩ | ⟨-, hop⟩
  · exact absurd hin hs
  · exact hop

/-! ## Resets that abort a command -/

theorem abortMemory_crypt {s : State} {op : EngineOp} {n : Nat} (hb : s.status.busy = true)
    (ho : s.opl = some op) (h : cryptWords op = some n) :
    abortMemory s = s.mem.writeBytes boutBase (drawBytes s.draws boutBase (n * s.width.bytes)) := by
  rw [abortMemory, if_pos hb, ho]
  cases op <;> cases h <;> rfl

theorem abortMemory_setup {s : State} {op : EngineOp} {x : Nat} (hb : s.status.busy = true)
    (ho : s.opl = some op) (h : setupExtra op = some x) :
    abortMemory s = if setupValid s.width s.param then
      drawTable s.width s.draws s.mem (tableLength x s.param) else s.mem := by
  rw [abortMemory, if_pos hb, ho]
  cases op <;> cases h <;> rfl

/-- With no command in flight, or none latched, a reset leaves the buffers and S (log 8). -/
theorem abortMemory_of_none {s : State} (h : s.status.busy = false ∨ s.opl = none) :
    abortMemory s = s.mem := by
  unfold abortMemory
  rcases h with h | h <;> rw [h]
  · rfl
  · exact ite_self _

/-! ## The write set of the command in flight -/

theorem inWriteSet_crypt {s : State} {op : EngineOp} {n a : Nat} (hb : s.status.busy = true)
    (ho : s.opl = some op) (h : cryptWords op = some n) :
    inWriteSet s a ↔ boutBase ≤ a ∧ a < boutBase + n * s.width.bytes := by
  rw [inWriteSet, ho]
  cases op <;> cases h <;> exact and_iff_right hb

theorem inWriteSet_setup {s : State} {op : EngineOp} {x a : Nat} (hb : s.status.busy = true)
    (ho : s.opl = some op) (h : setupExtra op = some x) :
    inWriteSet s a ↔ setupOk s ∧ ∃ k < tableLength x s.param, ∃ i < s.width.bytes,
      a = sAddr s.width k + i := by
  rw [inWriteSet, ho]
  cases op <;> cases h <;> exact and_iff_right hb

theorem not_inWriteSet_of_none {s : State} {a : Nat} (h : s.status.busy = false ∨ s.opl = none) :
    ¬ inWriteSet s a := by
  rintro ⟨hb, hset⟩
  rcases h with h | h
  · rw [h] at hb
    cases hb
  · rw [h] at hset
    exact hset

/-- An address that belongs to no entry S[0..n-1], in the form of the frames of a table write. -/
theorem sAddr_gap {w : WordWidth} {n a : Nat} (h : ¬ ∃ k < n, ∃ i < w.bytes, a = sAddr w k + i) :
    ∀ k < n, a < sAddr w k ∨ sAddr w k + w.bytes ≤ a := by
  intro k hk
  by_contra hin
  exact h ⟨k, hk, a - sAddr w k, by omega, by omega⟩

/-- A completion changes no byte outside the write set of its command. -/
theorem read_runOp_of_not_inWriteSet {s : State} {op : EngineOp} {a : Nat} (hb : s.status.busy = true)
    (ho : s.opl = some op) (ha : ¬ inWriteSet s a) : (runOp op s).mem.read a = s.mem.read a := by
  rcases setup_or_crypt op with ⟨x, hx⟩ | ⟨n, hn⟩
  · rw [inWriteSet_setup hb ho hx] at ha
    rw [runOp_setup hx]
    cases hv : setupValid s.width s.param with
    | false => rw [keySchedule_invalid x hv, State.setErr_mem]
    | true => exact read_keySchedule_gap hv (sAddr_gap fun h => ha ⟨(setupOk_iff s).mpr hv, h⟩)
  · rw [inWriteSet_crypt hb ho hn] at ha
    obtain ⟨vs, hlen, hmem⟩ := runOp_crypt_mem hn s
    rw [hmem, Memory.read_writeBytes_out (by omega)]

/-- A reset leaves every byte outside the write set (70_reset_and_hazards.md R142). -/
theorem read_abortMemory_of_not_inWriteSet {s : State} {a : Nat} (ha : ¬ inWriteSet s a) :
    (abortMemory s).read a = s.mem.read a := by
  cases hb : s.status.busy with
  | false => rw [abortMemory_of_none (.inl hb)]
  | true =>
    cases ho : s.opl with
    | none => rw [abortMemory_of_none (.inr ho)]
    | some op =>
      rcases setup_or_crypt op with ⟨x, hx⟩ | ⟨n, hn⟩
      · rw [inWriteSet_setup hb ho hx, setupOk_iff] at ha
        rw [abortMemory_setup hb ho hx]
        split
        · rename_i hv
          exact read_drawTable_gap (sAddr_gap fun h => ha ⟨hv, h⟩)
        · rfl
      · rw [inWriteSet_crypt hb ho hn] at ha
        rw [abortMemory_crypt hb ho hn, Memory.read_writeBytes_out (by rw [length_drawBytes]; omega)]

/-- A reset leaves free draws in the write set (70_reset_and_hazards.md R142). -/
theorem read_abortMemory_of_inWriteSet {s : State} {a : Nat} (ha : inWriteSet s a) :
    (abortMemory s).read a = Config.freeByte s.draws a := by
  have hb : s.status.busy = true := ha.1
  cases ho : s.opl with
  | none => exact absurd ha (not_inWriteSet_of_none (.inr ho))
  | some op =>
    rcases setup_or_crypt op with ⟨x, hx⟩ | ⟨n, hn⟩
    · rw [inWriteSet_setup hb ho hx, setupOk_iff] at ha
      obtain ⟨hv, k, hk, i, hi, rfl⟩ := ha
      rw [abortMemory_setup hb ho hx, if_pos hv, read_drawTable_in hk hi]
    · rw [inWriteSet_crypt hb ho hn] at ha
      obtain ⟨i, rfl⟩ := Nat.exists_eq_add_of_le ha.1
      have hi : i < n * s.width.bytes := by omega
      rw [abortMemory_crypt hb ho hn, Memory.read_writeBytes_in (by rwa [length_drawBytes]),
        getD_drawBytes hi]

end Sys2Proof.Machine
end

section
/-! The invariant of the machine: what memory, the hidden registers and the control state owe to it, that
every step keeps it, and that it holds after reset. -/

namespace Sys2Proof

/-- L has a word at every width (00_scope.md R12). -/
theorem WordWidth.lmax_pos (w : WordWidth) : 0 < w.lmax := by cases w <;> decide

namespace Machine

open Sys2Proof.Spec

/-! ## The invariant in three parts -/

/-- Memory is canonical and lists bytes of KEY, BIN, BOUT and S alone. -/
structure MemoryInv (w : WordWidth) (m : Memory) : Prop where
  wf : m.wf
  inRam : ∀ c ∈ m, ramByte w c.1 = true

/-- The hidden registers, L, the cursors and the counter are in their ranges. -/
structure HiddenInv (w : WordWidth) (h : Hidden) : Prop where
  a : h.a.toNat < 2 ^ w.bits
  b : h.b.toNat < 2 ^ w.bits
  c : h.c.toNat < 2 ^ w.bits
  d : h.d.toNat < 2 ^ w.bits
  i : h.i < smax
  j : h.j < w.lmax
  count : h.count < 3 * smax
  lengthL : h.l.length = w.lmax
  wordsL : ∀ x ∈ h.l, x.toNat < 2 ^ w.bits

/-- The registers agree with each other, with the phase and with the level of rst. -/
structure ControlInv (s : State) : Prop where
  busyOpl : s.status.busy = true → s.opl ≠ none
  busyFlags : s.status.busy = true → s.status.done = false ∧ s.status.err = false ∧ s.status.ill = false
  busyPhase : s.hidden.phase = .inFlight ↔ s.status.busy = true
  rstRegs : s.rst = true →
    s.ctrl = { ie := false, hbe := false } ∧ s.param = { pw := 0, pr := 0, pb := 0 } ∧
    s.status = { busy := false, done := false, err := false, ill := false, coll := false } ∧
    s.opl = none

theorem stateInv_iff {s : State} :
    StateInv s ↔ MemoryInv s.width s.mem ∧ HiddenInv s.width s.hidden ∧ ControlInv s := by
  constructor
  · intro h
    obtain ⟨ha, hb, hc, hd⟩ := h.hiddenWords
    obtain ⟨hlen, hl⟩ := h.hiddenL
    obtain ⟨hi, hj, hcount⟩ := h.hiddenCursors
    exact ⟨⟨h.memWf, h.memInRam⟩, ⟨ha, hb, hc, hd, hi, hj, hcount, hlen, hl⟩,
      ⟨h.busyOpl, h.busyFlags, h.busyPhase, h.rstRegs⟩⟩
  · rintro ⟨hm, hh, hc⟩
    exact ⟨hm.wf, hm.inRam, hc.busyOpl, hc.busyFlags, hc.busyPhase, hc.rstRegs, ⟨hh.a, hh.b, hh.c, hh.d⟩,
      ⟨hh.lengthL, hh.wordsL⟩, ⟨hh.i, hh.j, hh.count⟩⟩

/-- The inputs to come and RDATA are no part of the invariant. -/
theorem StateInv.withPort {s : State} (h : StateInv s) (xs : List Input) (v : BusWord) :
    StateInv { s with inputs := xs, rdata := v } := { h with }

/-! ## Memory -/

/-- The 256 bytes of KEY, and the 128 bytes of BIN and BOUT, which stand one after the other (20_memory.md
R46 to R48). -/
theorem ramByte_buffer {w : WordWidth} {a : Nat}
    (h : (keyBase ≤ a ∧ a < keyBase + 256) ∨ (binBase ≤ a ∧ a < boutBase + 64)) : ramByte w a = true := by
  simp only [ramByte, Bool.or_eq_true, Bool.and_eq_true, decide_eq_true_eq]
  exact .inl h

theorem ramByte_entry {w : WordWidth} {k a : Nat} (hk : k < smax) (hlo : sAddr w k ≤ a)
    (hhi : a < sAddr w k + w.bytes) : ramByte w a = true := by
  obtain ⟨i, rfl⟩ := Nat.exists_eq_add_of_le hlo
  have hi : i < w.bytes := by omega
  have hstride := w.bytes_le_stride
  have hoff : sAddr w k + i - sBase = i + 4 * w.nsw * k := by
    rw [sAddr, Nat.mul_assoc]
    omega
  have hpos : 0 < 4 * w.nsw := by omega
  have hle : sBase ≤ sAddr w k + i := by unfold sAddr; omega
  have hentry : (i + 4 * w.nsw * k) / (4 * w.nsw) = k := by
    rw [Nat.add_mul_div_left _ _ hpos, Nat.div_eq_of_lt (by omega), Nat.zero_add]
  have hbyte : (i + 4 * w.nsw * k) % (4 * w.nsw) = i := by
    rw [Nat.add_mul_mod_self_left, Nat.mod_eq_of_lt (by omega)]
  simp only [ramByte, hoff, hentry, hbyte, hle, hk, hi, decide_true, Bool.and_self, Bool.or_true]

/-- The bytes of a location of the S window that belong to its entry (20_memory.md R50). -/
theorem ramByte_slice {w : WordWidth} {n a : Nat} (hn : n / w.nsw < smax) (hlo : sBase + 4 * n ≤ a)
    (hhi : a < sBase + 4 * n + sliceBytes w) : ramByte w a = true := by
  obtain ⟨i, rfl⟩ := Nat.exists_eq_add_of_le hlo
  have hle := sliceBytes_le w
  have hin := (lt_sliceBytes_iff (i := i) (Nat.mod_lt n w.nsw_pos) (by omega)).mp (by omega)
  have haddr := sAddr_add_slice w n
  exact ramByte_entry hn (by omega) (by omega)

theorem MemoryInv.writeBytes {w : WordWidth} {m : Memory} (h : MemoryInv w m) {a : Nat} {vs : List Byte}
    (hram : ∀ b, a ≤ b → b < a + vs.length → ramByte w b = true) : MemoryInv w (m.writeBytes a vs) where
  wf := Memory.wf_writeBytes h.wf vs a
  inRam c hc := by
    rcases Memory.mem_writeBytes hc with ⟨hlo, hhi⟩ | hc
    · exact hram _ hlo hhi
    · exact h.inRam c hc

theorem MemoryInv.writeTable {w : WordWidth} {m : Memory} (h : MemoryInv w m) {xs : List (Word w)}
    (hxs : xs.length ≤ smax) : MemoryInv w (writeTable m 0 xs) where
  wf := wf_writeTable h.wf xs 0
  inRam c hc := by
    rcases mem_writeTable hc with ⟨j, -, hj, hlo, hhi⟩ | hc
    · exact ramByte_entry (by omega) hlo hhi
    · exact h.inRam c hc

theorem MemoryInv.drawTable {w : WordWidth} {m : Memory} (h : MemoryInv w m) {d n : Nat} (hn : n ≤ smax) :
    MemoryInv w (drawTable w d m n) where
  wf := wf_drawTable h.wf d n
  inRam c hc := by
    rcases mem_drawTable hc with ⟨j, hj, hlo, hhi⟩ | hc
    · exact ramByte_entry (by omega) hlo hhi
    · exact h.inRam c hc

/-- The output block of a crypt command is at most the 64 bytes of BOUT (00_scope.md R13). -/
theorem MemoryInv.writeBlock {w : WordWidth} {m : Memory} (h : MemoryInv w m) {n : Nat} {vs : List Byte}
    (hvs : vs.length = n * w.bytes) (hn : n ≤ 4) : MemoryInv w (m.writeBytes boutBase vs) := by
  have hlen : n * w.bytes ≤ 4 * 16 := Nat.mul_le_mul hn w.bytes_le
  refine h.writeBytes fun b hlo hhi => ramByte_buffer (.inr ⟨?_, by omega⟩)
  unfold boutBase at hlo
  unfold binBase
  omega

theorem MemoryInv.windowWrite {w : WordWidth} {m : Memory} (h : MemoryInv w m) {a : Nat} (d : BusWord)
    (hbe : Bool) (hram : ∀ b, a ≤ b → b < a + 4 → ramByte w b = true) :
    MemoryInv w (windowWrite m a d hbe) :=
  h.writeBytes fun b hlo hhi => hram b hlo (by rwa [length_bytesOf] at hhi)

theorem MemoryInv.sWrite {w : WordWidth} {m : Memory} (h : MemoryInv w m) {n : Nat} (d : BusWord)
    (hn : n / w.nsw < smax) : MemoryInv w (sWrite w m n d) :=
  h.writeBytes fun b hlo hhi => ramByte_slice hn hlo (by rwa [length_toLE] at hhi)

/-- The one write of a completion. -/
theorem MemoryInv.runOp {s : State} (h : MemoryInv s.width s.mem) (op : EngineOp) :
    MemoryInv s.width (runOp op s).mem := by
  rcases setup_or_crypt op with ⟨x, hx⟩ | ⟨n, hn⟩
  · rw [runOp_setup hx]
    cases hv : setupValid s.width s.param with
    | false => rwa [keySchedule_invalid x hv]
    | true =>
      rw [keySchedule_mem x hv]
      exact h.writeTable (by rw [length_expandKey_s]; exact tableLength_le_smax hv (setupExtra_le hx).2)
  · obtain ⟨vs, hlen, hmem⟩ := runOp_crypt_mem hn s
    rw [hmem]
    exact h.writeBlock hlen (cryptWords_le hn)

theorem MemoryInv.abortMemory {s : State} (h : MemoryInv s.width s.mem) :
    MemoryInv s.width (abortMemory s) := by
  by_cases hnone : s.status.busy = false ∨ s.opl = none
  · rwa [abortMemory_of_none hnone]
  · rw [not_or, Bool.not_eq_false] at hnone
    obtain ⟨hb, ho⟩ := hnone
    obtain ⟨op, ho⟩ := Option.ne_none_iff_exists'.mp ho
    rcases setup_or_crypt op with ⟨x, hx⟩ | ⟨n, hn⟩
    · rw [abortMemory_setup hb ho hx]
      split
      · rename_i hv
        exact h.drawTable (tableLength_le_smax hv (setupExtra_le hx).2)
      · exact h
    · rw [abortMemory_crypt hb ho hn]
      exact h.writeBlock (length_drawBytes _ _ _) (cryptWords_le hn)

/-! ## The hidden registers -/

/-- A datapath word held zero-extended stays a word. -/
theorem toNat_setWidth_lt {W n : Nat} (x : BitVec W) : (x.setWidth n).toNat < 2 ^ W :=
  (BitVec.toNat_setWidth .. ▸ Nat.mod_le _ _).trans_lt x.isLt

theorem HiddenInv.afterPair {w : WordWidth} {h : Hidden} (hh : HiddenInv w h) (v : Pair w) {k : Nat}
    (hk : k < 3 * smax) : HiddenInv w (h.afterPair v k) :=
  { hh with a := toNat_setWidth_lt v.a, b := toNat_setWidth_lt v.b, count := hk }

theorem HiddenInv.afterQuad {w : WordWidth} {h : Hidden} (hh : HiddenInv w h) (v : Quad w) {k : Nat}
    (hk : k < 3 * smax) : HiddenInv w (h.afterQuad v k) :=
  { hh with
    a := toNat_setWidth_lt v.a
    b := toNat_setWidth_lt v.b
    c := toNat_setWidth_lt v.c
    d := toNat_setWidth_lt v.d
    count := hk }

@[simp] theorem length_keyWords (w : WordWidth) (m : Memory) (b k n : Nat) :
    (keyWords w m b k n).length = n := by
  induction n generalizing k with
  | zero => rfl
  | succ n ih => rw [keyWords, List.length_cons, ih]

@[simp] theorem length_mixSteps_l {w : WordWidth} (t c n : Nat) (z : Mix w) :
    (mixSteps t c n z).l.length = z.l.length := by
  induction n with
  | zero => rfl
  | succ n ih => rw [mixSteps_succ, mixStep, List.length_set, ih]

theorem length_expandKey_l (w : WordWidth) (m : Memory) (x : Nat) (p : Param) :
    (expandKey w m x p).l.length = keyWordCount w p.b := by
  rw [expandKey_eq, length_mixSteps_l]
  exact length_keyWords w m p.b 0 _

/-- The cursors are n mod t and n mod c after n iterations (43_key_schedule.md R111). -/
theorem mixSteps_cursors {w : WordWidth} (t c n : Nat) {z : Mix w} (hi : z.i = 0) (hj : z.j = 0) :
    (mixSteps t c n z).i = n % t ∧ (mixSteps t c n z).j = n % c := by
  induction n with
  | zero => exact ⟨by rw [mixSteps, hi, Nat.zero_mod], by rw [mixSteps, hj, Nat.zero_mod]⟩
  | succ n ih =>
    rw [mixSteps_succ, mixStep, ih.1, ih.2]
    exact ⟨Nat.mod_add_mod n t 1, Nat.mod_add_mod n c 1⟩

theorem keyWordCount_pos (w : WordWidth) (b : Nat) : 0 < keyWordCount w b := Nat.le_max_left 1 _

/-- A valid setup leaves its cursors below t and c, which fit the two RAMs. -/
theorem expandKey_cursors {w : WordWidth} {p : Param} (m : Memory) {x : Nat} (hv : setupValid w p = true)
    (hx : 2 ≤ x ∧ x ≤ 4) : (expandKey w m x p).i < smax ∧ (expandKey w m x p).j < w.lmax := by
  obtain ⟨-, -, -, hb⟩ := (setupValid_iff w p).mp hv
  obtain ⟨hlo, hhi⟩ := hx
  have htpos : 0 < tableLength x p := by unfold tableLength; omega
  obtain ⟨hi, hj⟩ := mixSteps_cursors (tableLength x p) (keyWordCount w p.b) (mixCount w x p)
    (z := mixStart w m x p) rfl rfl
  rw [expandKey_eq, hi, hj]
  exact ⟨(Nat.mod_lt _ htpos).trans_le (tableLength_le_smax hv hhi),
    (Nat.mod_lt _ (keyWordCount_pos w p.b)).trans_le (keyWordCount_le_lmax w hb)⟩

/-- A valid setup leaves words, c of them in L, and its counter at the last iteration. -/
theorem HiddenInv.afterSetup {s : State} {x : Nat} (hh : HiddenInv s.width s.hidden)
    (hv : setupValid s.width s.param = true) (hx : 2 ≤ x ∧ x ≤ 4) :
    HiddenInv s.width (s.hidden.afterSetup (expandKey s.width s.mem x s.param)
      (mixCount s.width x s.param)) := by
  obtain ⟨hi, hj⟩ := expandKey_cursors s.mem hv hx
  refine ⟨toNat_setWidth_lt _, toNat_setWidth_lt _, hh.c, hh.d, hi, hj, ?_, ?_, fun y hy => ?_⟩
  · obtain ⟨-, hcount⟩ := mixCount_bounds hv
    obtain ⟨-, hhi⟩ := hx
    have hmono := mixCount_mono s.width s.param hhi
    show mixCount s.width x s.param - 1 < 1524
    omega
  · obtain ⟨-, -, -, hb⟩ := (setupValid_iff _ _).mp hv
    have hc := keyWordCount_le_lmax s.width hb
    simp only [Hidden.afterSetup, List.length_append, List.length_map, List.length_drop,
      length_expandKey_l, hh.lengthL]
    omega
  · rcases List.mem_append.mp hy with hy | hy
    · obtain ⟨z, -, rfl⟩ := List.mem_map.mp hy
      exact toNat_setWidth_lt z
    · exact hh.wordsL y (List.mem_of_mem_drop hy)

/-- The values a completion leaves in the hidden registers. -/
theorem HiddenInv.runOp {s : State} (h : HiddenInv s.width s.hidden) (op : EngineOp) :
    HiddenInv s.width (runOp op s).hidden := by
  rcases setup_or_crypt op with ⟨x, hx⟩ | ⟨n, hn⟩
  · rw [runOp_setup hx]
    cases hv : setupValid s.width s.param with
    | false => rwa [keySchedule_invalid x hv]
    | true =>
      rw [keySchedule, if_pos hv]
      exact h.afterSetup hv (setupExtra_le hx)
  · by_cases hs : inContract s
    · have hc := (inContract_iff s).mp hs
      obtain ⟨-, hr, -⟩ := (cryptInContract_iff s.width s.param).mp hc
      have hcount : s.param.r - 1 < 3 * smax := by unfold smax; omega
      cases op <;>
        simp only [Machine.runOp, runRc5Encrypt, runRc5Decrypt, runRc6Encrypt, runRc6Decrypt, if_pos hc]
      case setup5 | setup6 => cases hn
      case enc5 => exact h.afterPair _ hcount
      case dec5 => exact h.afterPair _ (by decide)
      case enc6 => exact h.afterQuad _ hcount
      case dec6 => exact h.afterQuad _ (by decide)
    · rwa [runOp_outOfContract hn hs]

theorem HiddenInv.reset (w : WordWidth) : HiddenInv w (Hidden.reset w) := by
  have hpos : 0 < 2 ^ w.bits := Nat.two_pow_pos _
  refine ⟨hpos, hpos, hpos, hpos, Nat.zero_lt_succ _, w.lmax_pos, Nat.zero_lt_succ _, List.length_replicate,
    fun x hx => ?_⟩
  rw [List.eq_of_mem_replicate hx]
  exact hpos

/-- The phase is no part of it. -/
theorem HiddenInv.withPhase {w : WordWidth} {h : Hidden} (hh : HiddenInv w h) (p : Phase) :
    HiddenInv w { h with phase := p } := { hh with }

/-! ## The control state -/

theorem idle_ne_inFlight : Phase.idle ≠ .inFlight := by decide

/-- With BUSY = 0, rst = 0 and an idle phase there is nothing to demand. -/
theorem ControlInv.of_idle {s : State} (hs : idle s) (hp : s.hidden.phase ≠ .inFlight) :
    ControlInv s := by
  obtain ⟨hr, hb⟩ := hs
  refine ⟨fun h => ?_, fun h => ?_, iff_of_false hp (by rw [hb]; decide), fun h => ?_⟩
  · rw [hb] at h; cases h
  · rw [hb] at h; cases h
  · rw [hr] at h; cases h

theorem ControlInv.phase_ne {s : State} (h : ControlInv s) (hb : s.status.busy = false) :
    s.hidden.phase ≠ .inFlight := fun hp => by
  rw [h.busyPhase.mp hp] at hb
  cases hb

/-- A write of STATUS only clears flags; any other change of CTRL and PARAM while rst = 0 is free. -/
theorem ControlInv.of_registers {s t : State} (h : ControlInv s) (hr : t.rst = false)
    (hb : t.status.busy = s.status.busy) (ho : t.opl = s.opl) (hp : t.hidden.phase = s.hidden.phase)
    (hd : s.status.done = false → t.status.done = false)
    (he : s.status.err = false → t.status.err = false)
    (hi : s.status.ill = false → t.status.ill = false) : ControlInv t := by
  refine ⟨fun hbt => ?_, fun hbt => ?_, by rw [hp, hb]; exact h.busyPhase, fun hrt => ?_⟩
  · rw [ho]
    exact h.busyOpl (hb ▸ hbt)
  · obtain ⟨hd0, he0, hi0⟩ := h.busyFlags (hb ▸ hbt)
    exact ⟨hd hd0, he he0, hi hi0⟩
  · rw [hr] at hrt
    cases hrt

/-! ## Every step -/

theorem StateInv.runOp_complete {s : State} (h : StateInv s) (hr : s.rst = false) (op : EngineOp) :
    StateInv (runOp op s).complete := by
  obtain ⟨hm, hh, -⟩ := stateInv_iff.mp h
  obtain ⟨hw, -, -, -, hrst, -⟩ := runOp_frame op s
  refine stateInv_iff.mpr ⟨?_, ?_, .of_idle ⟨hrst.trans hr, rfl⟩ idle_ne_inFlight⟩
  · rw [State.complete_width, hw]
    exact hm.runOp op
  · rw [State.complete_width, hw]
    exact (hh.runOp op).withPhase _

theorem StateInv.engineTurn {s t : State} (h : StateInv s) (ht : engineTurn s = .next t) : StateInv t := by
  rcases engineTurn_cases s with ⟨hr, -, op, -, hturn⟩ | ⟨-, hb, ho, -⟩ | ⟨-, hturn⟩
  · rw [hturn] at ht
    cases ht
    exact h.runOp_complete hr op
  · exact absurd ho (h.busyOpl hb)
  · rw [hturn] at ht
    cases ht
    exact h

theorem StateInv.applyReset {s : State} (h : StateInv s) : StateInv (applyReset s) := by
  obtain ⟨hm, -, -⟩ := stateInv_iff.mp h
  refine stateInv_iff.mpr ⟨hm.abortMemory, .reset s.width, nofun, nofun,
    iff_of_false idle_ne_inFlight Bool.false_ne_true, fun _ => ⟨rfl, rfl, rfl, rfl⟩⟩

theorem StateInv.releaseReset {s : State} (h : StateInv s) : StateInv (releaseReset s) :=
  { h with rstRegs := nofun }

/-- A collision sets COLL alone; it needs rst = 0. -/
theorem StateInv.setColl {s : State} (h : StateInv s) (hr : s.rst = false) : StateInv s.setColl := by
  obtain ⟨hm, hh, hc⟩ := stateInv_iff.mp h
  exact stateInv_iff.mpr ⟨hm, hh, hc.of_registers hr rfl rfl rfl id id id⟩

theorem StateInv.busRead {s : State} (h : StateInv s) (q : BitVec 12) : StateInv (busRead q s) := by
  rcases busRead_cases q s with ⟨v, hrd⟩ | ⟨hr, -, -, hrd⟩ <;> rw [hrd]
  · exact h.withPort s.inputs v
  · exact (h.setColl hr).withPort s.inputs 0

/-- Acceptance happens while idle (42_control.md R96 to R98). -/
theorem StateInv.accept {s : State} (h : StateInv s) (hs : idle s) (d : BusWord) : StateInv (accept d s) := by
  obtain ⟨hm, hh, hc⟩ := stateInv_iff.mp h
  obtain ⟨hr, hb⟩ := hs
  rcases accept_cases d s with ⟨-, ha⟩ | ⟨i, -, -, ha⟩ | ⟨i, op, -, -, ha⟩ <;> rw [ha]
  · exact stateInv_iff.mpr ⟨hm, hh, .of_idle ⟨hr, hb⟩ (hc.phase_ne hb)⟩
  · exact stateInv_iff.mpr ⟨hm, hh, .of_idle ⟨hr, hb⟩ (hc.phase_ne hb)⟩
  · refine stateInv_iff.mpr ⟨hm, hh.withPhase _, fun _ => by simp, fun _ => ⟨rfl, rfl, rfl⟩,
      iff_of_true rfl rfl, fun hrst => ?_⟩
    rw [State.latch_rst, State.clearForAccept_rst, hr] at hrst
    cases hrst

theorem StateInv.withMem {s : State} (h : StateInv s) {m : Memory} (hm : MemoryInv s.width m) :
    StateInv { s with mem := m } := { h with memWf := hm.wf, memInRam := hm.inRam }

/-- A write that is performed (40_host_port.md R79). -/
theorem StateInv.writeRegion {s : State} (h : StateInv s) (hr : s.rst = false) (q : BitVec 12) (d : BusWord)
    (hg : s.status.busy = false ∨ (region s.width q).writeGuarded = false) :
    StateInv (writeRegion s d (region s.width q)) := by
  obtain ⟨hm, hh, hc⟩ := stateInv_iff.mp h
  rcases region_cases s.width q with ⟨-, hq⟩ | ⟨-, hq⟩ | ⟨-, hq⟩ | ⟨-, hq⟩ | ⟨-, hq⟩ | ⟨n, hq, -, hn⟩ |
    ⟨n, hq, -, hn⟩ | ⟨n, hq, -⟩ | ⟨n, hq, -, hn⟩ | hq <;> rw [hq] at hg ⊢
  · exact h
  · exact stateInv_iff.mpr ⟨hm, hh, hc.of_registers hr rfl rfl rfl id id id⟩
  · exact stateInv_iff.mpr ⟨hm, hh, hc.of_registers hr rfl rfl rfl id id id⟩
  · have hb : s.status.busy = false := hg.resolve_right (by decide)
    exact h.accept ⟨hr, hb⟩ d
  · exact stateInv_iff.mpr ⟨hm, hh, hc.of_registers hr rfl rfl rfl
      (fun hd => by rw [Machine.writeRegion, Status.writeOneToClear, hd, Bool.false_and])
      (fun he => by rw [Machine.writeRegion, Status.writeOneToClear, he, Bool.false_and])
      (fun hi => by rw [Machine.writeRegion, Status.writeOneToClear, hi, Bool.false_and])⟩
  · exact h.withMem (hm.windowWrite d _ fun b hlo hhi => ramByte_buffer (.inl (by omega)))
  · refine h.withMem (hm.windowWrite d _ fun b hlo hhi => ramByte_buffer (.inr ⟨by omega, ?_⟩))
    unfold binBase at hhi
    unfold boutBase
    omega
  · exact h
  · exact h.withMem (hm.sWrite d hn)
  · exact h

theorem StateInv.busWrite {s : State} (h : StateInv s) (q : BitVec 12) (d : BusWord) :
    StateInv (busWrite q d s) := by
  rcases busWrite_cases q d s with ⟨-, hwr⟩ | ⟨hr, -, -, hwr⟩ | ⟨hr, hg, hwr⟩ <;> rw [hwr]
  · exact h
  · exact h.setColl hr
  · exact h.writeRegion hr q d hg

/-- Settles O48: memory, the hidden registers and the control state each keep their part under the ENGINE's
turn, both edges of rst and both transactions. -/
theorem stepKeepsInvariant : Obligations.StepKeepsInvariant := by
  intro s t h hstep
  rcases step_cases hstep with ⟨-, hturn⟩ | ⟨x, rest, -, hx⟩
  · exact h.engineTurn hturn
  · have hu : StateInv { s with inputs := rest } := h.withPort rest s.rdata
    rcases hx with ⟨-, hturn⟩ | ⟨-, rfl⟩ | ⟨-, rfl⟩ | ⟨w, q, d, -, -, rfl⟩ | ⟨w, q, d, -, -, rfl⟩
    · exact hu.engineTurn hturn
    · exact hu.applyReset
    · exact hu.releaseReset
    · exact hu.busRead q
    · exact hu.busWrite q d

theorem stateInv_afterReset (w : WordWidth) : StateInv (State.afterReset w) :=
  stateInv_iff.mpr ⟨⟨List.Pairwise.nil, nofun⟩, .reset w, .of_idle ⟨rfl, rfl⟩ idle_ne_inFlight⟩

/-- Settles O49: after reset memory lists nothing, the hidden registers are 0 and no command is in flight. -/
theorem invariantHoldsAtReset : Obligations.InvariantHoldsAtReset :=
  ⟨stateInv_afterReset, stateInv_afterReset .w32⟩

end Machine
end Sys2Proof
end

section
/-! The statements about one step, one transaction and the registers: how a step finds its instruction,
acceptance and NOP, register reads and writes, and reads while idle. -/

namespace Sys2Proof.Machine

open Sys2Proof.Spec

/-! ## One step by its input -/

theorem step_of_nil {s : State} (h : s.inputs = []) : step s = engineTurn s := by
  rw [step, h]

theorem step_of_cons {s : State} {x : Input} {rest : List Input} (h : s.inputs = x :: rest) :
    step s = stepInput x { s with inputs := rest } := by
  rw [step, h]

/-- Settles O5: `decodeWord` at length 45 is `decodeTransaction`. -/
theorem stepRunsPresentedTransaction : Obligations.StepRunsPresentedTransaction := by
  intro s t rest i hin hdec
  rw [decodeWord_transaction, Except.ok.injEq] at hdec
  rw [step_of_cons hin, stepInput, hdec]

theorem engineTurn_inFlight {s : State} {op : EngineOp} (hs : inFlight s) (ho : s.opl = some op) :
    engineTurn s = exec op.instr s := by
  obtain ⟨hr, hb⟩ := hs
  simp only [engineTurn, hr, hb, ho, Bool.not_false, Bool.and_self, if_true]

theorem engineTurn_disabled {s : State} (h : s.rst = true ∨ s.status.busy = false) :
    engineTurn s = .next s := by
  rcases engineTurn_cases s with ⟨hr, hb, -⟩ | ⟨hr, hb, -⟩ | ⟨-, ht⟩
  · simp [hr, hb] at h
  · simp [hr, hb] at h
  · exact ht

/-- Settles O6: both with no input left and with its turn next, the step is `engineTurn`. -/
theorem engineStepRunsTheLatchedCommand : Obligations.EngineStepRunsTheLatchedCommand := by
  intro s op rest
  refine ⟨fun hs ho => ⟨fun hin => ?_, fun hin => ?_⟩, fun hs => ⟨fun hin => ?_, fun hin => ?_⟩⟩
  · rw [step_of_nil hin, engineTurn_inFlight hs ho]
  · rw [step_of_cons hin]
    exact engineTurn_inFlight (s := { s with inputs := rest }) hs ho
  · rw [step_of_nil hin, engineTurn_disabled hs]
  · rw [step_of_cons hin]
    exact engineTurn_disabled (s := { s with inputs := rest }) hs

theorem engineTurn_next (s : State) : ∃ t, engineTurn s = .next t := by
  rcases engineTurn_cases s with ⟨-, -, op, -, h⟩ | ⟨-, -, -, h⟩ | ⟨-, h⟩ <;> exact ⟨_, h⟩

theorem stepInput_next {x : Input} (hx : x.ordinary = true) (s : State) : ∃ t, stepInput x s = .next t := by
  cases x with
  | transaction t => exact exec_next _ s
  | engine => exact engineTurn_next s
  | rst level => cases level <;> exact ⟨_, rfl⟩
  | narrow z a w d => cases hx
  | otherSignals => cases hx

/-- An input that belongs to the interface is answered (70_reset_and_hazards.md R158). -/
theorem step_next {s : State} (h : ∀ x, s.inputs.head? = some x → x.ordinary = true) :
    ∃ t, step s = .next t := by
  cases hin : s.inputs with
  | nil =>
    rw [step_of_nil hin]
    exact engineTurn_next s
  | cons x rest =>
    rw [step_of_cons hin]
    exact stepInput_next (h x (by rw [hin]; rfl)) _

/-- Settles O8: each kind of input is answered, or refused by its name. -/
theorem everyOrdinaryStepAnswers : Obligations.EveryOrdinaryStepAnswers := by
  refine fun s => ⟨step_next, fun z a w d h => ?_, fun h => ?_⟩
  · obtain ⟨rest, hin⟩ := List.head?_eq_some_iff.mp h
    rw [step_of_cons hin]
    rfl
  · obtain ⟨rest, hin⟩ := List.head?_eq_some_iff.mp h
    rw [step_of_cons hin]
    rfl

/-! ## Acceptance and NOP -/

/-- The engine commands start in a CMD write while idle (42_control.md R96). -/
theorem exec_wr_cmd_engine {s : State} (hs : idle s) (op : EngineOp) :
    exec (.wr 3 (opWord op)) s = .next (s.clearForAccept.latch op) := by
  rw [exec_wr, busWrite_cmd _ hs, accept_opWord]

/-- Settles O9: acceptance is `clearForAccept` and `latch`, which write no other field. -/
theorem acceptanceStartsTheCommand : Obligations.AcceptanceStartsTheCommand := fun _ op hs =>
  exec_wr_cmd_engine hs op

/-- NOP while idle: only STATUS changes (42_control.md R97). -/
theorem setDone_clearForAccept {s : State} (hs : idle s) :
    s.clearForAccept.setDone = { s with
      status := { busy := false, done := true, err := false, ill := false, coll := s.status.coll } } := by
  obtain ⟨-, hb⟩ := hs
  simp [State.setDone, State.clearForAccept, hb]

/-- The row NOP is the CMD write of its word (assumption log 7). -/
theorem exec_wr_cmd_nop (s : State) : exec (.wr 3 0) s = exec .nop s := by
  rw [exec_wr, busWrite, region_cmd]
  show _ = execNop s
  unfold execNop
  cases s.rst <;> cases s.status.busy <;> rfl

theorem exec_nop_inFlight {s : State} (hs : inFlight s) : exec .nop s = .next s.setColl := by
  obtain ⟨hr, hb⟩ := hs
  simp [exec, execNop, hr, hb]

/-- Settles O10: while idle NOP is acceptance and immediate completion, in flight it collides. -/
theorem nopCompletesAtAcceptance : Obligations.NopCompletesAtAcceptance := by
  refine fun s => ⟨exec_wr_cmd_nop s, fun hs => ?_, fun hs hie t ht => ?_, exec_nop_inFlight,
    fun hs hword t ht => ?_⟩
  · rw [exec_nop_idle hs, setDone_clearForAccept hs]
  · rw [exec_nop_idle hs] at ht
    cases ht
    exact s.clearForAccept.setDone_irq.trans hie
  · have hcoll : s.status.coll = false := by
      rw [← Status.getLsbD_word_coll, hword]
      rfl
    rw [exec_wr_cmd_nop, exec_nop_idle hs, setDone_clearForAccept hs, hcoll] at ht
    cases ht
    show Status.word ⟨false, true, false, false, false⟩ = 0x2
    decide

/-! ## Registers on the host port -/

/-- The registers are not guarded: their reads are answered in flight too (40_host_port.md R77). -/
theorem busRead_register {s : State} {q : BitVec 12} (hr : s.rst = false)
    (hq : q = 1 ∨ q = 2 ∨ q = 3 ∨ q = 4) :
    busRead q s = { s with rdata := readRegion s (region s.width q) } := by
  refine busRead_eq hr (.inr ?_)
  rcases hq with rfl | rfl | rfl | rfl
  · rw [region_ctrl]; rfl
  · rw [region_param]; rfl
  · rw [region_cmd]; rfl
  · rw [region_status]; rfl

theorem Ctrl.word_eq (c : Ctrl) : c.word = BitVec.ofNat 32 (c.ie.toNat + 2 * c.hbe.toNat) := by
  obtain ⟨ie, hbe⟩ := c
  cases ie <;> cases hbe <;> rfl

theorem Status.word_eq (t : Status) : t.word = BitVec.ofNat 32 (t.busy.toNat + 2 * t.done.toNat +
    4 * t.err.toNat + 8 * t.ill.toNat + 16 * t.coll.toNat) := by
  obtain ⟨b, d, e, i, c⟩ := t
  cases b <;> cases d <;> cases e <;> cases i <;> cases c <;> rfl

theorem Param.toNat_word (p : Param) :
    p.word.toNat = p.pw.toNat + 2 ^ 8 * p.pr.toNat + 2 ^ 20 * p.pb.toNat := by
  rw [Param.word, toNat_append, toNat_append]
  omega

theorem Param.word_eq (p : Param) :
    p.word = BitVec.ofNat 32 (p.pw.toNat + 2 ^ 8 * p.pr.toNat + 2 ^ 20 * p.pb.toNat) := by
  rw [← p.toNat_word, BitVec.ofNat_toNat, BitVec.setWidth_eq]

/-- Settles O12: each register is read as its word, whose bits are the fields. -/
theorem readsOfRegisters : Obligations.ReadsOfRegisters := by
  intro s d hr
  refine ⟨?_, ?_, ?_, ?_⟩
  · rw [exec_rd, busRead_register hr (by decide), region_ctrl, readRegion, Ctrl.word_eq]
  · rw [exec_rd, busRead_register hr (by decide), region_param, readRegion, Param.word_eq]
  · rw [exec_rd, busRead_register hr (by decide), region_cmd, readRegion]
  · rw [exec_rd, busRead_register hr (by decide), region_status, readRegion, Status.word_eq]

/-- PARAM keeps every written bit (10_state.md R28). -/
theorem Param.word_ofWord (d : BusWord) : (Param.ofWord d).word = d := by
  have hlow : d.extractLsb' 20 12 ++ d.extractLsb' 8 12 = d.extractLsb' 8 24 :=
    BitVec.extractLsb'_append_extractLsb'_eq_extractLsb' rfl
  have hall : d.extractLsb' 8 24 ++ d.extractLsb' 0 8 = d.extractLsb' 0 32 :=
    BitVec.extractLsb'_append_extractLsb'_eq_extractLsb' rfl
  rw [Param.word, Param.ofWord, hlow]
  exact hall.trans BitVec.extractLsb'_eq_self

/-- Settles O13: CTRL and STATUS take writes in flight too; PARAM, while idle, takes the whole word. -/
theorem writesOfRegisters : Obligations.WritesOfRegisters := by
  intro s d hr
  refine ⟨?_, ?_, fun hb => ⟨Param.ofWord d, ?_, ?_⟩⟩
  · rw [exec_wr, busWrite_ctrl d hr]
    rfl
  · rw [exec_wr, busWrite_status d hr]
    rfl
  · rw [exec_wr, busWrite_eq hr (.inl hb), region_param]
    rfl
  · rw [← Param.toNat_word, Param.word_ofWord]

/-! ## Reads while idle -/

theorem busRead_idle {s : State} (hs : idle s) (q : BitVec 12) :
    busRead q s = { s with rdata := readRegion s (region s.width q) } := busRead_eq hs.1 (.inl hs.2)

/-- No location returns what the last read returned. -/
theorem readRegion_withRdata (s : State) (v : BusWord) (r : Region) :
    readRegion { s with rdata := v } r = readRegion s r := by cases r <;> rfl

/-- Settles O21: an idle read writes RDATA alone, and no location shows RDATA. -/
theorem idleReadsAreIdempotent : Obligations.IdleReadsAreIdempotent := by
  intro s q d hs
  refine ⟨_, exec_rd q d s, by rw [busRead_idle hs], ?_⟩
  rw [exec_rd, busRead_idle hs]
  exact congrArg _ ((busRead_idle hs q).trans (by rw [readRegion_withRdata]))

/-- Settles O18: RDATA holds the slice bit by bit, and a write of the same location puts each bit back. -/
theorem savedTableWordIsRestored : Obligations.SavedTableWordIsRestored := by
  intro s u t q d hs hu hw hq hrd
  obtain ⟨hle, hlt⟩ := hq
  have haddr : addr q = sBase + 4 * ((addr q - 0x2000) / 4) := by unfold addr sBase at *; omega
  generalize (addr q - 0x2000) / 4 = n at haddr hlt
  rw [exec_rd, busRead_sWindow hs haddr hlt] at hrd
  cases hrd
  refine ⟨_, exec_wr _ _ _, fun k _ m hm hkm i hlo hhi => ?_⟩
  have hn : n = s.width.nsw * k + m := by unfold sBase at haddr; omega
  have hk : n / s.width.nsw = k := by
    rw [hn, Nat.mul_add_div s.width.nsw_pos, Nat.div_eq_of_lt hm, Nat.add_zero]
  have hmod : n % s.width.nsw = m := by rw [hn, Nat.mul_add_mod, Nat.mod_eq_of_lt hm]
  rw [busWrite_sWindow _ hu haddr (hw.symm ▸ hlt), entry_eq_sEntry, entry_eq_sEntry, hw, ← hk]
  by_cases hi : i < s.width.bits
  · rw [getLsbD_sEntry_sWrite u.mem n _ hi, if_pos (by omega), getLsbD_sRead _ _ _ (by omega), hmod,
      Nat.add_sub_cancel' hlo]
  · rw [BitVec.getLsbD_of_ge _ _ (by omega), BitVec.getLsbD_of_ge _ _ (by omega)]

/-- Settles O19: lane k under HBE = 0 and lane 3 - k under HBE = 1 are both byte k of the location. -/
theorem laneSettingReversesBytes : Obligations.LaneSettingReversesBytes := by
  intro s t u q d hs hq ht hu
  have hread (b : Bool) := busRead_byteWindow (s := { s with ctrl := { s.ctrl with hbe := b } }) hs hq
  rw [exec_rd, hread] at ht hu
  cases ht
  cases hu
  exact ⟨fun k hk => (extractLsb'_windowRead s.mem (addr q) false hk).trans
    (extractLsb'_windowRead s.mem (addr q) true hk).symm, rfl, rfl⟩

end Sys2Proof.Machine
end

section
/-! The statements about the key schedule and its two commands: how large its tables are, when a setup
fails, and that the table is that of the spec's own loops (43_key_schedule.md R104 to R111). -/

namespace Sys2Proof.Machine

open Sys2Proof.Spec

/-! ## Sizes -/

/-- A key of 255 bytes, the longest, fills L (00_scope.md R12). -/
theorem keyWordCount_255 (w : WordWidth) : keyWordCount w 255 = w.lmax := by cases w <;> rfl

/-- The key words hold every key byte (00_scope.md R12). -/
theorem le_keyWordCount_mul (w : WordWidth) (b : Nat) : b ≤ keyWordCount w b * w.bytes := by
  have hpos := w.bytes_pos
  have hceil : (b + w.bytes - 1) / w.bytes * w.bytes + (b + w.bytes - 1) % w.bytes = b + w.bytes - 1 :=
    Nat.div_add_mod' _ _
  have hrest := Nat.mod_lt (b + w.bytes - 1) hpos
  have hmax : (b + w.bytes - 1) / w.bytes * w.bytes ≤ keyWordCount w b * w.bytes :=
    Nat.mul_le_mul_right _ (Nat.le_max_right _ _)
  omega

/-- Settles O32: r is a multiple of 4 up to 252, and b is at most 255. -/
theorem tablesFitTheRams : Obligations.TablesFitTheRams := by
  intro w p hv
  obtain ⟨-, -, -, hb⟩ := (setupValid_iff w p).mp hv
  exact ⟨Nat.le_add_left _ _, tableLength_le 2 hv, tableLength_le 4 hv, keyWordCount_pos w p.b,
    keyWordCount_le_lmax w hb, keyWordCount_255 w, le_keyWordCount_mul w p.b⟩

/-! ## Setups that fail -/

/-- A setup with invalid parameters sets ERR and writes nothing (43_key_schedule.md R106). -/
theorem exec_setup_invalid {s : State} {op : EngineOp} (hx : setupExtra op ≠ none) (hs : ¬ setupOk s) :
    exec op.instr s = .next s.setErr.complete := by
  obtain ⟨x, hx⟩ := Option.ne_none_iff_exists'.mp hx
  rw [setupOk_iff, Bool.not_eq_true] at hs
  rw [exec_op, runOp_setup hx, keySchedule_invalid x hs]

/-- Settles O33: an invalid setup is `setErr` and a completion; a valid one keeps ERR. -/
theorem setupFailsExactlyWhenInvalid : Obligations.SetupFailsExactlyWhenInvalid := by
  intro s op hx
  refine ⟨fun hs => exec_setup_invalid hx hs, fun hs => ⟨_, exec_op op s, ?_⟩⟩
  obtain ⟨x, hx⟩ := Option.ne_none_iff_exists'.mp hx
  obtain ⟨-, -, -, -, -, -, -, -, -, hstatus⟩ := keySchedule_frame x s
  rw [runOp_setup hx, State.complete_status, hstatus, (setupOk_iff s).mp hs, Bool.not_true, Bool.or_false]

/-! ## The schedule of the spec -/

theorem getD_keyWords {w : WordWidth} {m : Memory} {b k n i : Nat} (hi : i < n) :
    (keyWords w m b k n).getD i 0 = keyWord w m b (k + i) := by
  induction n generalizing k i with
  | zero => omega
  | succ n ih =>
    cases i with
    | zero => rfl
    | succ i => rw [keyWords, List.getD_cons_succ, ih (by omega), Nat.add_assoc, Nat.add_comm 1]

theorem getD_set {α : Type} (xs : List α) {i k : Nat} (x d : α) (hi : i < xs.length) :
    (xs.set i x).getD k d = if k = i then x else xs.getD k d := by
  rw [List.getD_eq_getElem?_getD, List.getElem?_set]
  by_cases hk : i = k
  · subst hk
    simp [hi]
  · simp [hk, Ne.symm hk]

/-- After n iterations the lists of the machine hold the arrays of the spec, and its cursors are n mod t and
n mod c (43_key_schedule.md R109, R111). -/
structure Holds {w : WordWidth} (t c n : Nat) (z : Mix w) (y : Mixing w) : Prop where
  lengthS : z.s.length = t
  lengthL : z.l.length = c
  getS : ∀ k < t, z.s.getD k 0 = y.s k
  getL : ∀ k < c, z.l.getD k 0 = y.l k
  a : z.a = y.a
  b : z.b = y.b
  i : z.i = n % t
  j : z.j = n % c

theorem Holds.iteration {w : WordWidth} {t c n : Nat} {z : Mix w} {y : Mixing w} (h : Holds t c n z y)
    (ht : 0 < t) (hc : 0 < c) : Holds t c (n + 1) (mixStep t c z) (mixing t c y n) := by
  have hi : z.i < t := h.i ▸ Nat.mod_lt n ht
  have hj : z.j < c := h.j ▸ Nat.mod_lt n hc
  have ha : (mixStep t c z).a = (mixing t c y n).a := by
    have hrot : (mixStep t c z).a = rotl (z.s.getD z.i 0 + z.a + z.b) 3 := rfl
    rw [hrot, h.getS z.i hi, h.a, h.b, h.i]
    rfl
  have hb : (mixStep t c z).b = (mixing t c y n).b := by
    have hrot : (mixStep t c z).b = rotl (z.l.getD z.j 0 + (mixStep t c z).a + z.b)
        (((mixStep t c z).a + z.b).toNat % w.bits) := (rotl_mod _ _).symm
    rw [hrot, ha, h.getL z.j hj, h.b, h.j]
    rfl
  refine ⟨?_, ?_, fun k hk => ?_, fun k hk => ?_, ha, hb, ?_, ?_⟩
  · exact List.length_set.trans h.lengthS
  · exact List.length_set.trans h.lengthL
  · have hset : (mixStep t c z).s.getD k 0 =
        if k = z.i then (mixStep t c z).a else z.s.getD k 0 :=
      getD_set z.s _ _ (by rwa [h.lengthS])
    rw [hset, ha, h.i, h.getS k hk]
    rfl
  · have hset : (mixStep t c z).l.getD k 0 =
        if k = z.j then (mixStep t c z).b else z.l.getD k 0 :=
      getD_set z.l _ _ (by rwa [h.lengthL])
    rw [hset, hb, h.j, h.getL k hk]
    rfl
  · show (z.i + 1) % t = (n + 1) % t
    rw [h.i, Nat.mod_add_mod]
  · show (z.j + 1) % c = (n + 1) % c
    rw [h.j, Nat.mod_add_mod]

theorem Holds.iterations {w : WordWidth} {t c : Nat} {z : Mix w} {y : Mixing w} (h : Holds t c 0 z y)
    (ht : 0 < t) (hc : 0 < c) (n : Nat) :
    Holds t c n (mixSteps t c n z) ((List.range n).foldl (mixing t c) y) := by
  induction n with
  | zero => exact h
  | succ n ih =>
    rw [mixSteps_succ, List.range_succ, List.foldl_concat]
    exact ih.iteration ht hc

/-- The arrays and accumulators before the first iteration (43_key_schedule.md R107, R108). -/
def mixingStart (w : WordWidth) (ram : Nat → Byte) (b : Nat) : Mixing w where
  s := fun i => magicP w + BitVec.ofNat w.bits i * magicQ w
  l := fun k => Spec.keyWord w ram b k
  a := 0
  b := 0

theorem schedule_eq (w : WordWidth) (m : Memory) (x : Nat) (p : Param) (k : Nat) :
    schedule w m.read (tableLength x p) p.b k =
      ((List.range (mixCount w x p)).foldl (mixing (tableLength x p) (keyWordCount w p.b))
        (mixingStart w m.read p.b)).s k := rfl

theorem holds_mixStart (w : WordWidth) (m : Memory) (x : Nat) (p : Param) :
    Holds (tableLength x p) (keyWordCount w p.b) 0 (mixStart w m x p) (mixingStart w m.read p.b) where
  lengthS := length_initEntries w _ _
  lengthL := length_keyWords w m _ _ _
  getS := fun k hk => getD_initEntries _ hk
  getL := fun k hk => by
    rw [mixStart, getD_keyWords hk, Nat.zero_add, keyWord_eq_spec]
    rfl
  a := rfl
  b := rfl
  i := (Nat.zero_mod _).symm
  j := (Nat.zero_mod _).symm

/-- The machine's mixing pass over lists is the spec's over functions. -/
theorem getD_expandKey {w : WordWidth} {m : Memory} {x k : Nat} {p : Param} (hk : k < tableLength x p) :
    (expandKey w m x p).s.getD k 0 = schedule w m.read (tableLength x p) p.b k := by
  have hmix := (holds_mixStart w m x p).iterations (by omega) (keyWordCount_pos w p.b) (mixCount w x p)
  rw [expandKey_eq, schedule_eq]
  exact hmix.getS k hk

/-- Settles O34: a valid setup leaves the mixed values in S, and these are the spec's. -/
theorem setupComputesTheSchedule : Obligations.SetupComputesTheSchedule := by
  intro s op x hx hok
  refine ⟨_, exec_op op s, fun k hk => ?_⟩
  rw [runOp_setup hx]
  exact (entry_keySchedule ((setupOk_iff s).mp hok) hk).trans (getD_expandKey hk)

end Sys2Proof.Machine
end

section
/-! The statements about the reset input and about a word placed by `withFetchWord` (10_state.md R41,
70_reset_and_hazards.md R141 to R143; assumption log 10). -/

namespace Sys2Proof.Machine

open Sys2Proof.Spec

/-! ## A word placed by withFetchWord -/

theorem step_present (t : BitVec 45) (s : State) :
    step (present t s) = exec (decodeTransaction t) { s with rst := false } := rfl

theorem step_engineNext (op : EngineOp) (s : State) :
    step (engineNext op s) = exec op.instr { s.clearForAccept.latch op with rst := false } := rfl

theorem loadWord_transaction (t : BitVec 45) (s : State) : loadWord 45 t.toNat s = present t s := by
  rw [loadWord, if_neg (by decide), BitVec.ofNat_toNat, BitVec.setWidth_eq]

/-- An instruction is NOP, an engine command, or a transaction (30_encoding.md R65, R70). -/
theorem instr_cases (i : Instr) :
    i = .nop ∨ (∃ op : EngineOp, i = op.instr) ∨ (∃ q d, i = .rd q d) ∨ ∃ q d, i = .wr q d := by
  cases i
  case nop => exact .inl rfl
  case setup5 => exact .inr (.inl ⟨.setup5, rfl⟩)
  case setup6 => exact .inr (.inl ⟨.setup6, rfl⟩)
  case enc5 => exact .inr (.inl ⟨.enc5, rfl⟩)
  case dec5 => exact .inr (.inl ⟨.dec5, rfl⟩)
  case enc6 => exact .inr (.inl ⟨.enc6, rfl⟩)
  case dec6 => exact .inr (.inl ⟨.dec6, rfl⟩)
  case rd q d => exact .inr (.inr (.inl ⟨q, d, rfl⟩))
  case wr q d => exact .inr (.inr (.inr ⟨q, d, rfl⟩))

theorem engineOp_instr (op : EngineOp) : engineOp op.instr = some op := by cases op <;> rfl

/-- The word of an engine command is put into OPL. -/
theorem withFetchWord_engine (op : EngineOp) (s : State) :
    s.withFetchWord (encode op.instr).1 (encode op.instr).2 = engineNext op s := by
  cases op <;> rfl

/-- Settles O7: an engine command is run from OPL, NOP by its CMD write, a transaction from the port. -/
theorem fetchedWordRunsNext : Obligations.FetchedWordRunsNext := by
  intro s i
  rcases instr_cases i with rfl | ⟨op, rfl⟩ | ⟨q, d, rfl⟩ | ⟨q, d, rfl⟩
  · exact (step_present (cmdWriteWord 0) s).trans (exec_wr_cmd_nop _)
  · rw [withFetchWord_engine, step_engineNext, engineOp_instr]
  · show step (loadWord 45 (transactionWord 0 q d).toNat s) = _
    rw [loadWord_transaction, step_present]
    exact congrArg (exec · { s with rst := false }) (decodeTransaction_append false q d)
  · show step (loadWord 45 (transactionWord 1 q d).toNat s) = _
    rw [loadWord_transaction, step_present]
    exact congrArg (exec · { s with rst := false }) (decodeTransaction_append true q d)

/-! ## After reset -/

/-- After reset w is 0, which is no width (42_control.md R100). -/
theorem not_setupOk_of_param_zero {s : State} (h : s.param = { pw := 0, pr := 0, pb := 0 }) :
    ¬ setupOk s := by
  rintro ⟨hw, -⟩
  have hpos := s.width.bits_pos
  rw [h] at hw
  exact absurd hw.symm hpos.ne'

/-- A setup issued right after reset is accepted and completes with ERR (10_state.md R41). -/
theorem setup_afterReset (w : WordWidth) {op : EngineOp} (hx : setupExtra op ≠ none) :
    ∃ t u, exec (.wr 3 (opWord op)) (State.afterReset w) = .next t ∧ step t = .next u ∧
      u.status.word = 0x6 ∧ u.mem = [] := by
  have haccept := exec_wr_cmd_engine (s := State.afterReset w) ⟨rfl, rfl⟩ op
  have hturn : step ((State.afterReset w).clearForAccept.latch op) =
      .next ((State.afterReset w).clearForAccept.latch op).setErr.complete := by
    rw [step_of_nil rfl, engineTurn_inFlight ⟨rfl, rfl⟩ rfl]
    exact exec_setup_invalid hx (not_setupOk_of_param_zero rfl)
  have hword : Status.word ⟨false, true, true, false, false⟩ = 0x6 := by decide
  exact ⟨_, _, haccept, hturn, hword, rfl⟩

/-! CTRL, PARAM and STATUS read 0 after reset and while rst = 1 (10_state.md R41). -/

theorem Ctrl.word_zero : Ctrl.word ⟨false, false⟩ = 0 := by decide

theorem Param.word_zero : Param.word ⟨0, 0, 0⟩ = 0 := by decide

theorem Status.word_zero : Status.word ⟨false, false, false, false, false⟩ = 0 := by decide

/-- Settles O23: the fields of `State.afterReset`, and a setup run on it. -/
theorem resetValues : Obligations.ResetValues :=
  ⟨rfl, fun w => ⟨rfl, Ctrl.word_zero, Param.word_zero, Status.word_zero, rfl, rfl, rfl, fun _ => rfl,
    fun _ hx => setup_afterReset w hx⟩⟩

/-! ## rst = 1 -/

theorem step_rst_true_cons {s : State} {rest : List Input} (h : s.inputs = .rst true :: rest) :
    step s = .next (applyReset { s with inputs := rest }) := step_of_cons h

/-- Settles O24: the registers are those of `applyReset`, and memory holds draws in the write set of the
command in flight and is untouched outside it. -/
theorem resetAbortsTheCommandInFlight : Obligations.ResetAbortsTheCommandInFlight := by
  intro s rest hin
  exact ⟨_, step_rst_true_cons hin, rfl, rfl, rfl, rfl, rfl, rfl, rfl,
    fun a ha => read_abortMemory_of_inWriteSet (s := { s with inputs := rest }) ha,
    fun a ha => read_abortMemory_of_not_inWriteSet (s := { s with inputs := rest }) ha, Nat.lt_succ_self _⟩

theorem busWrite_held {s : State} (hr : s.rst = true) (q : BitVec 12) (d : BusWord) :
    busWrite q d s = s := by
  rw [busWrite, if_pos hr]

theorem busRead_held {s : State} (hr : s.rst = true) (q : BitVec 12) :
    busRead q s = { s with rdata := 0 } := by
  rw [busRead, if_pos hr]

theorem exec_nop_held {s : State} (hr : s.rst = true) : exec .nop s = .next s := if_pos hr

@[simp] theorem busRead_rst (q : BitVec 12) (s : State) : (busRead q s).rst = s.rst := by
  rcases busRead_cases q s with ⟨v, h⟩ | ⟨-, -, -, h⟩ <;> rw [h]
  rfl

@[simp] theorem busWrite_rst (q : BitVec 12) (d : BusWord) (s : State) : (busWrite q d s).rst = s.rst := by
  rcases busWrite_cases q d s with ⟨-, h⟩ | ⟨-, -, -, h⟩ | ⟨-, -, h⟩ <;> rw [h]
  · rfl
  · obtain ⟨-, hr, -⟩ := writeRegion_frame s d (region s.width q)
    exact hr

/-- No instruction asserts or ends a reset (70_reset_and_hazards.md R141). -/
theorem exec_rst {i : Instr} {s t : State} (h : exec i s = .next t) : t.rst = s.rst := by
  rcases instr_cases i with rfl | ⟨op, rfl⟩ | ⟨q, d, rfl⟩ | ⟨q, d, rfl⟩
  · rw [← exec_wr_cmd_nop] at h
    cases h
    exact busWrite_rst 3 0 s
  · rw [exec_op] at h
    cases h
    obtain ⟨-, -, -, -, hr, -⟩ := completed_runOp op s
    exact hr
  · cases h
    exact busRead_rst q s
  · cases h
    exact busWrite_rst q d s

/-- Settles O25: the edge gives the reset values, every transaction and the ENGINE's turn check the level,
and only the edge with rst = 0 changes it. -/
theorem resetHoldsTheBlock : Obligations.ResetHoldsTheBlock := by
  refine ⟨fun s rest hin => ⟨_, step_rst_true_cons hin, rfl, Ctrl.word_zero, Param.word_zero,
      Status.word_zero, rfl, rfl⟩,
    fun s q d rest hr => ⟨?_, ?_, exec_nop_held hr, fun hin => ?_, fun hin => ?_, step_of_cons⟩,
    fun i s t h => exec_rst h⟩
  · rw [exec_wr, busWrite_held hr]
  · rw [exec_rd, busRead_held hr]
  · rw [step_of_nil hin, engineTurn_disabled (.inl hr)]
  · rw [step_of_cons hin]
    exact engineTurn_disabled (s := { s with inputs := rest }) (.inl hr)

end Sys2Proof.Machine
end

section
/-! The statements about the crypt commands: each is the spec's own loop (44_rc5.md R113, R114, 45_rc6.md
R118, R119), what it leaves alone, what it does out of contract (42_control.md R101), and what its result
depends on (30_encoding.md R69, 20_memory.md R52). -/

namespace Sys2Proof.Machine

open Sys2Proof.Spec

/-! ## The spec's loops

A loop of the spec is a fold over the round numbers, the machine's is a recursion; `words` says how the
fold's value is made of the machine's. -/

section
variable {α β : Type} {words : α → β} {round rounds : Nat → α → α} {f : β → Nat → β}

theorem foldl_range_eq (hround : ∀ k v, f (words v) k = words (round k v))
    (hzero : ∀ v, rounds 0 v = v) (hsucc : ∀ r v, rounds (r + 1) v = round r (rounds r v))
    (r : Nat) (v : α) : (List.range r).foldl f (words v) = words (rounds r v) := by
  induction r with
  | zero => rw [List.range_zero, List.foldl_nil, hzero]
  | succ r ih => rw [List.range_succ, List.foldl_concat, ih, hround, hsucc]

theorem foldl_range_reverse_eq (hround : ∀ k v, f (words v) k = words (round k v))
    (hzero : ∀ v, rounds 0 v = v) (hsucc : ∀ r v, rounds (r + 1) v = rounds r (round r v))
    (r : Nat) (v : α) : (List.range r).reverse.foldl f (words v) = words (rounds r v) := by
  induction r generalizing v with
  | zero => rw [List.range_zero, List.reverse_nil, List.foldl_nil, hzero]
  | succ r ih => rw [List.range_succ, List.reverse_concat, List.foldl_cons, hround, ih, hsucc]

end

/-- The two words of an RC5 block as the spec's loops hold them. -/
def Pair.words {w : WordWidth} (v : Pair w) : Word w × Word w := (v.a, v.b)

/-- The four words of an RC6 block as the spec's loops hold them. -/
def Quad.words {w : WordWidth} (v : Quad w) : Word w × Word w × Word w × Word w := (v.a, v.b, v.c, v.d)

theorem enc5_eq {w : WordWidth} (S : Nat → Word w) (r : Nat) (p0 p1 : Word w) :
    enc5 S r p0 p1 = (rc5Encrypt S r ⟨p0, p1⟩).words := by
  refine foldl_range_eq (words := Pair.words) (round := rc5Round S) (fun k v => ?_) (fun _ => rfl)
    (fun _ _ => rfl) r ⟨p0 + S 0, p1 + S 1⟩
  simp only [Pair.words, rc5Round, rotl, BitVec.rotateLeft_mod_eq_rotateLeft]

theorem dec5_eq {w : WordWidth} (S : Nat → Word w) (r : Nat) (c0 c1 : Word w) :
    dec5 S r c0 c1 = (rc5Decrypt S r ⟨c0, c1⟩).words := by
  refine congrArg (fun v : Word w × Word w => (v.1 - S 0, v.2 - S 1))
    (foldl_range_reverse_eq (words := Pair.words) (round := rc5Unround S) (rounds := rc5Unrounds S)
      (fun k v => ?_) (fun _ => rfl) (fun _ _ => rfl) r ⟨c0, c1⟩)
  simp only [Pair.words, rc5Unround, rotr, BitVec.rotateRight_mod_eq_rotateRight]

/-- The machine forms 2x as x + x (41_datapath.md R89). -/
theorem f_eq_quad {w : WordWidth} (x : Word w) : f x = quad x := by
  rw [f, quad, two_mul]
  rfl

theorem enc6_eq {w : WordWidth} (S : Nat → Word w) (r : Nat) (p0 p1 p2 p3 : Word w) :
    enc6 S r p0 p1 p2 p3 = (rc6Encrypt S r ⟨p0, p1, p2, p3⟩).words := by
  refine congrArg (fun v : Word w × Word w × Word w × Word w =>
      (v.1 + S (2 * r + 2), v.2.1, v.2.2.1 + S (2 * r + 3), v.2.2.2))
    (foldl_range_eq (words := Quad.words) (round := rc6Round S) (rounds := rc6Rounds S)
      (fun k v => ?_) (fun _ => rfl) (fun _ _ => rfl) r ⟨p0, p1 + S 0, p2, p3 + S 1⟩)
  simp only [Quad.words, rc6Round, f_eq_quad, rotl, BitVec.rotateLeft_mod_eq_rotateLeft]

theorem dec6_eq {w : WordWidth} (S : Nat → Word w) (r : Nat) (c0 c1 c2 c3 : Word w) :
    dec6 S r c0 c1 c2 c3 = (rc6Decrypt S r ⟨c0, c1, c2, c3⟩).words := by
  refine congrArg (fun v : Word w × Word w × Word w × Word w => (v.1, v.2.1 - S 0, v.2.2.1, v.2.2.2 - S 1))
    (foldl_range_reverse_eq (words := Quad.words) (round := rc6Unround S) (rounds := rc6Unrounds S)
      (fun k v => ?_) (fun _ => rfl) (fun _ _ => rfl) r
      ⟨c0 - S (2 * r + 2), c1, c2 - S (2 * r + 3), c3⟩)
  simp only [Quad.words, rc6Unround, f_eq_quad, rotr, BitVec.rotateRight_mod_eq_rotateRight]

/-! ## The four commands in contract -/

/-- What a crypt command in contract leaves alone: everything but BUSY, DONE, the hidden registers and
its block of BOUT. -/
theorem exec_crypt_frame {op : EngineOp} {n : Nat} (hn : cryptWords op = some n) {s t : State}
    (hs : inContract s) (ht : exec op.instr s = .next t) :
    completed s t ∧ t.status.err = s.status.err ∧ t.draws = s.draws ∧
      sameOutside s t 0x240 (0x240 + n * s.width.bytes) := by
  rw [exec_op] at ht
  cases ht
  obtain ⟨vs, hlen, hmem⟩ := runOp_crypt_mem hn s
  refine ⟨completed_runOp op s, ?_, ?_, fun a ha => ?_⟩
  · rw [State.complete_status, runOp_crypt_status hn]
  · rw [State.complete_draws, runOp_crypt_draws hn hs]
  · rw [State.complete_mem, hmem, Memory.read_writeBytes_out (by rwa [hlen])]

/-- A two-word command answers with the words `c` of the spec's loop, where that loop is its transform. -/
theorem CryptsPair.exec_eq_spec {op : EngineOp}
    {crypt : {w : WordWidth} → (Nat → Word w) → Nat → Pair w → Pair w} (h : CryptsPair op crypt)
    (hn : cryptWords op = some 2) {s : State} (hs : inContract s) {c : Word s.width × Word s.width}
    (hc : c = (crypt (entry s.width s.mem.read) s.param.r ⟨binWord s 0, binWord s 1⟩).words) :
    ∃ t, exec op.instr s = .next t ∧ completed s t ∧ t.status.err = s.status.err ∧ t.draws = s.draws ∧
      (wordInBout t 0 c.1 ∧ wordInBout t s.width.bytes c.2) ∧
      sameOutside s t 0x240 (0x240 + 2 * s.width.bytes) := by
  subst hc
  obtain ⟨t, ht, hwords⟩ := h.exec_wordInBout hs rfl
  obtain ⟨hdone, herr, hdraws, hout⟩ := exec_crypt_frame hn hs ht
  exact ⟨t, ht, hdone, herr, hdraws, hwords, hout⟩

/-- A four-word command answers with the words `c` of the spec's loop, where that loop is its transform. -/
theorem CryptsQuad.exec_eq_spec {op : EngineOp} {crypt : QuadCrypt} (h : CryptsQuad op crypt)
    (hn : cryptWords op = some 4) {s : State} (hs : inContract s)
    {c : Word s.width × Word s.width × Word s.width × Word s.width}
    (hc : c = (crypt (entry s.width s.mem.read) s.param.r
      ⟨binWord s 0, binWord s 1, binWord s 2, binWord s 3⟩).words) :
    ∃ t, exec op.instr s = .next t ∧ completed s t ∧ t.status.err = s.status.err ∧ t.draws = s.draws ∧
      (wordInBout t 0 c.1 ∧ wordInBout t s.width.bytes c.2.1 ∧ wordInBout t (2 * s.width.bytes) c.2.2.1 ∧
        wordInBout t (3 * s.width.bytes) c.2.2.2) ∧
      sameOutside s t 0x240 (0x240 + 4 * s.width.bytes) := by
  subst hc
  obtain ⟨t, ht, hwords⟩ := h.exec_wordInBout hs rfl
  obtain ⟨hdone, herr, hdraws, hout⟩ := exec_crypt_frame hn hs ht
  exact ⟨t, ht, hdone, herr, hdraws, hwords, hout⟩

/-- Settles O37: the loop of R113 is `rc5Encrypt`. -/
theorem enc5EncryptsTheBlock : Obligations.Enc5EncryptsTheBlock := fun _ hs =>
  cryptsPair_enc5.exec_eq_spec rfl hs (enc5_eq _ _ _ _)

/-- Settles O38: the loop of R114 is `rc5Decrypt`. -/
theorem dec5DecryptsTheBlock : Obligations.Dec5DecryptsTheBlock := fun _ hs =>
  cryptsPair_dec5.exec_eq_spec rfl hs (dec5_eq _ _ _ _)

/-- Settles O41: the loop of R118 is `rc6Encrypt`. -/
theorem enc6EncryptsTheBlock : Obligations.Enc6EncryptsTheBlock := fun _ hs =>
  cryptsQuad_enc6.exec_eq_spec rfl hs (enc6_eq _ _ _ _ _ _)

/-- Settles O42: the loop of R119 is `rc6Decrypt`. -/
theorem dec6DecryptsTheBlock : Obligations.Dec6DecryptsTheBlock := fun _ hs =>
  cryptsQuad_dec6.exec_eq_spec rfl hs (dec6_eq _ _ _ _ _ _)

/-! ## Out of contract -/

/-- Settles O45: no crypt command touches ERR; in contract r is at most 252; out of contract the command is
`arbitraryBlock`. -/
theorem outOfContractCryptIsArbitrary : Obligations.OutOfContractCryptIsArbitrary := by
  intro s op n hn
  refine ⟨⟨_, exec_op op s, ?_⟩, fun hs => ?_,
    fun hs => ⟨s.mem.writeBytes boutBase (drawBytes s.draws boutBase (blockBytes n s.width)), ?_,
      fun i hi => ?_, fun a ha => ?_⟩⟩
  · rw [State.complete_status, runOp_crypt_status hn]
  · obtain ⟨-, hr, hr4⟩ := hs
    omega
  · rw [exec_op, runOp_outOfContract hn hs]
    rfl
  · rw [Memory.read_writeBytes_in (by rwa [length_drawBytes])]
    exact getD_drawBytes hi
  · exact Memory.read_writeBytes_out (by rwa [length_drawBytes])

/-! ## What a crypt command reads -/

/-- Transforms that undo each other with any table of the same entries depend on those entries alone. -/
theorem Undoes.congr {crypt uncrypt : QuadCrypt} (h : Undoes uncrypt crypt) (h' : Undoes crypt uncrypt)
    {w : WordWidth} {key key' : Nat → Word w} {r : Nat} (p : Quad w)
    (hkey : ∀ k < 2 * r + 4, key' k = key k) : crypt key' r p = crypt key r p :=
  calc crypt key' r p
    _ = crypt key' r (uncrypt key' r (crypt key r p)) := congrArg (crypt key' r) (h p hkey).symm
    _ = crypt key r p := h' _ fun _ _ => rfl

/-- Two states whose commands read the same: equal w and r, equal entries of the table and equal input
blocks of n words. -/
structure SameCryptInputs (n : Nat) (s u : State) : Prop where
  width : u.width = s.width
  r : u.param.r = s.param.r
  table : ∀ k < 2 * s.param.r + n, sEntry s.width u.mem k = sEntry s.width s.mem k
  block : ∀ i < n * s.width.bytes, u.mem.read (binBase + i) = s.mem.read (binBase + i)

theorem CryptsPair.read_congr {op : EngineOp}
    {crypt : {w : WordWidth} → (Nat → Word w) → Nat → Pair w → Pair w} (h : CryptsPair op crypt)
    (hcongr : ∀ {w : WordWidth} {key key' : Nat → Word w} {r : Nat} (p : Pair w),
      (∀ k < 2 * r + 2, key k = key' k) → crypt key r p = crypt key' r p)
    {s u : State} (hs : inContract s) (hu : inContract u) (hsu : SameCryptInputs 2 s u) :
    ∀ i < 2 * s.width.bytes,
      (runOp op u).mem.read (boutBase + i) = (runOp op s).mem.read (boutBase + i) := by
  have hout := h.readPair_bout hu
  rw [hsu.width, hsu.r, readPair_eq_iff.mpr hsu.block, hcongr _ hsu.table, ← h.readPair_bout hs] at hout
  exact readPair_eq_iff.mp hout

theorem CryptsQuad.read_congr {op : EngineOp} {crypt uncrypt : QuadCrypt} (h : CryptsQuad op crypt)
    (hundo : Undoes uncrypt crypt) (hundo' : Undoes crypt uncrypt) {s u : State} (hs : inContract s)
    (hu : inContract u) (hsu : SameCryptInputs 4 s u) :
    ∀ i < 4 * s.width.bytes,
      (runOp op u).mem.read (boutBase + i) = (runOp op s).mem.read (boutBase + i) := by
  have hout := h.readQuad_bout hu
  rw [hsu.width, hsu.r, readQuad_eq_iff.mpr hsu.block, hundo.congr hundo' _ hsu.table,
    ← h.readQuad_bout hs] at hout
  exact readQuad_eq_iff.mp hout

/-- The output block depends on w, r, the entries used and the input block (30_encoding.md R69). -/
theorem read_runOp_of_sameCryptInputs {op : EngineOp} {n : Nat} (hn : cryptWords op = some n) {s u : State}
    (hs : inContract s) (hu : inContract u) (hsu : SameCryptInputs n s u) :
    ∀ i < n * s.width.bytes,
      (runOp op u).mem.read (boutBase + i) = (runOp op s).mem.read (boutBase + i) := by
  cases op
  case setup5 | setup6 => cases hn
  all_goals cases hn
  · exact cryptsPair_enc5.read_congr rc5Encrypt_congr hs hu hsu
  · exact cryptsPair_dec5.read_congr rc5Decrypt_congr hs hu hsu
  · exact cryptsQuad_enc6.read_congr rc6Decrypt_undoes rc6Encrypt_undoes hs hu hsu
  · exact cryptsQuad_dec6.read_congr rc6Encrypt_undoes rc6Decrypt_undoes hs hu hsu

/-- Settles O46: each transform uses the entries S[0..2r+n-1] alone, and a block is its bytes. -/
theorem cryptReadsOnlyItsInputs : Obligations.CryptReadsOnlyItsInputs := by
  intro s u op n hn hs hw hpw hpr htable hblock
  have hu : inContract u := by rwa [inContract, hw, hpw, hpr]
  have hsu : SameCryptInputs n s u := by
    refine ⟨hw, congrArg BitVec.toNat hpr, fun k hk => ?_, hblock⟩
    rw [← entry_eq_sEntry, ← entry_eq_sEntry]
    exact htable k hk
  exact ⟨_, _, exec_op op s, exec_op op u, read_runOp_of_sameCryptInputs hn hs hu hsu⟩

/-! ## What every command reads -/

theorem Memory.read_writeBytes_congr {m m' : Memory} (h : ∀ a, m'.read a = m.read a) (b : Nat)
    (vs : List Byte) (a : Nat) : (m'.writeBytes b vs).read a = (m.writeBytes b vs).read a := by
  rw [Memory.read_writeBytes, Memory.read_writeBytes, h]

theorem read_writeTable_congr {w : WordWidth} {m m' : Memory} (h : ∀ a, m'.read a = m.read a)
    (xs : List (Word w)) (k a : Nat) : (writeTable m' k xs).read a = (writeTable m k xs).read a := by
  induction xs generalizing k a with
  | nil => exact h a
  | cons x xs ih => exact Memory.read_writeBytes_congr (ih (k + 1)) _ _ a

/-- A command's result in memory depends on w, PARAM, the bytes in memory and, out of contract, on the
number of the draw. -/
theorem read_runOp_congr (op : EngineOp) {s u : State} (hw : u.width = s.width) (hp : u.param = s.param)
    (hd : u.draws = s.draws) (hm : ∀ a, u.mem.read a = s.mem.read a) (a : Nat) :
    (runOp op u).mem.read a = (runOp op s).mem.read a := by
  rcases setup_or_crypt op with ⟨x, hx⟩ | ⟨n, hn⟩
  · have hvalid : setupValid u.width u.param = setupValid s.width s.param := by rw [hw, hp]
    have hexpand : expandKey s.width u.mem x s.param = expandKey s.width s.mem x s.param :=
      expandKey_congr x fun i _ => hm _
    rw [runOp_setup hx, runOp_setup hx]
    cases hv : setupValid s.width s.param with
    | false =>
      rw [keySchedule_invalid x hv, keySchedule_invalid x (hvalid.trans hv)]
      exact hm a
    | true =>
      rw [keySchedule_mem x hv, keySchedule_mem x (hvalid.trans hv), hw, hp, hexpand]
      exact read_writeTable_congr hm _ _ a
  · have hcontract : inContract u ↔ inContract s := by rw [inContract, inContract, hw, hp]
    by_cases hs : inContract s
    · by_cases ha : a < boutBase ∨ boutBase + n * s.width.bytes ≤ a
      · obtain ⟨vs, hvs, hmem⟩ := runOp_crypt_mem hn s
        obtain ⟨vu, hvu, hmem'⟩ := runOp_crypt_mem hn u
        rw [hw] at hvu
        rw [hmem, hmem', Memory.read_writeBytes_out (by rwa [hvu]),
          Memory.read_writeBytes_out (by rwa [hvs]), hm]
      · obtain ⟨i, rfl⟩ := Nat.exists_eq_add_of_le (show boutBase ≤ a by omega)
        exact read_runOp_of_sameCryptInputs hn hs (hcontract.mpr hs)
          ⟨hw, by rw [hp], fun k _ => packLE_congr fun i _ => hm _, fun i _ => hm _⟩ i (by omega)
    · rw [runOp_outOfContract hn hs, runOp_outOfContract hn (mt hcontract.mp hs), arbitraryBlock,
        arbitraryBlock, hw, hd]
      exact Memory.read_writeBytes_congr hm _ _ a

/-- No command reads CTRL (20_memory.md R52). -/
theorem runOp_withCtrl (op : EngineOp) (s : State) (c : Ctrl) :
    runOp op { s with ctrl := c } = { runOp op s with ctrl := c } := by
  cases op <;>
    simp only [runOp, keySchedule, runRc5Encrypt, runRc5Decrypt, runRc6Encrypt, runRc6Decrypt] <;>
    split <;> rfl

/-- Settles O47: the results are read from w, PARAM, memory and the draw number, and CTRL is only carried
along. -/
theorem resultsIgnoreByteLanes : Obligations.ResultsIgnoreByteLanes := by
  intro s u op hw hp hd hm
  refine ⟨_, _, exec_op op s, exec_op op u, read_runOp_congr op hw hp hd hm, fun c => ?_⟩
  rw [exec_op, runOp_withCtrl]
  rfl

end Sys2Proof.Machine
end

section
/-! The statements about runs of the whole machine: that a run ends (70_reset_and_hazards.md R157, R158),
that transactions in flight change no result (42_control.md R102), what a command issued through CMD comes
to, that hidden registers are unobservable, and who writes what (10_state.md R31 to R34). -/

namespace Sys2Proof.Machine

open Sys2Proof.Spec

/-! ## Runs -/

theorem run_succ {s t : State} (h : step s = .next t) (n : Nat) : core.run (n + 1) s = core.run n t := by
  have hcore : core.step s = .next t := h
  simp only [Host.Core.run, hcore]

/-- A run that answers has answered at its first step. -/
theorem first_step_of_run {n : Nat} {s t : State} (hrun : core.run (n + 1) s = .next t) :
    ∃ v, step s = .next v ∧ core.run n v = .next t := by
  cases hs : step s with
  | next v => exact ⟨v, rfl, (run_succ hs n).symm.trans hrun⟩
  | fault r => cases r
  | refused r =>
    have hcore : core.step s = .refused r := hs
    simp only [Host.Core.run, hcore] at hrun
    cases hrun

/-- A run followed by one more step. -/
theorem run_concat {s t u : State} {n : Nat} (hrun : core.run n s = .next t) (h : step t = .next u) :
    core.run (n + 1) s = .next u := by
  induction n generalizing s with
  | zero =>
    cases hrun
    exact run_succ h 0
  | succ n ih =>
    obtain ⟨v, hv, hrest⟩ := first_step_of_run hrun
    exact (run_succ hv _).trans (ih hrest)

/-! ## The inputs still to come -/

@[simp] theorem busRead_inputs (q : BitVec 12) (s : State) : (busRead q s).inputs = s.inputs := by
  rcases busRead_cases q s with ⟨v, h⟩ | ⟨-, -, -, h⟩ <;> rw [h]
  rfl

@[simp] theorem busWrite_inputs (q : BitVec 12) (d : BusWord) (s : State) :
    (busWrite q d s).inputs = s.inputs := by
  rcases busWrite_cases q d s with ⟨-, h⟩ | ⟨-, -, -, h⟩ | ⟨-, -, h⟩ <;> rw [h]
  · rfl
  · obtain ⟨-, -, -, hin, -⟩ := writeRegion_frame s d (region s.width q)
    exact hin

theorem engineTurn_inputs {s t : State} (h : engineTurn s = .next t) : t.inputs = s.inputs := by
  rcases engineTurn_cases s with ⟨-, -, op, -, ht⟩ | ⟨-, -, -, ht⟩ | ⟨-, ht⟩ <;> (rw [ht] at h; cases h)
  · obtain ⟨-, -, -, -, -, -, hin, -⟩ := completed_runOp op s
    exact hin
  · rfl
  · rfl

/-- A step takes one input, where there is one. -/
theorem step_inputs {s t : State} (h : step s = .next t) : t.inputs = s.inputs.tail := by
  rcases step_cases h with ⟨hin, ht⟩ | ⟨x, rest, hin, hx⟩
  · rw [engineTurn_inputs ht, hin]
    rfl
  · rw [hin, List.tail_cons]
    rcases hx with ⟨-, ht⟩ | ⟨-, rfl⟩ | ⟨-, rfl⟩ | ⟨w, q, d, -, -, rfl⟩ | ⟨w, q, d, -, -, rfl⟩
    · exact engineTurn_inputs ht
    · rfl
    · rfl
    · exact busRead_inputs q _
    · exact busWrite_inputs q d _

/-! ## Every run ends -/

/-- The ENGINE's turn leaves no command in flight, if the invariant holds: BUSY = 1 excludes rst = 1. -/
theorem busy_of_engineTurn {s t : State} (h : StateInv s) (ht : engineTurn s = .next t) :
    t.status.busy = false := by
  rcases engineTurn_cases s with ⟨-, -, op, -, hturn⟩ | ⟨-, -, -, hturn⟩ | ⟨hoff, hturn⟩ <;>
    (rw [hturn] at ht; cases ht)
  · rfl
  · rfl
  · rcases hoff with hr | hb
    · obtain ⟨-, -, hstatus, -⟩ := h.rstRegs hr
      rw [hstatus]
    · exact hb

theorem StateInv.run_ends {n : Nat} {s : State} (h : StateInv s) (hlen : s.inputs.length = n)
    (hin : ∀ x ∈ s.inputs, x.ordinary = true) :
    ∃ t : State, core.run (n + 1) s = .next t ∧ t.ended = true := by
  induction n generalizing s with
  | zero =>
    have hnil : s.inputs = [] := List.length_eq_zero_iff.mp hlen
    obtain ⟨t, ht⟩ := engineTurn_next s
    refine ⟨t, run_succ ((step_of_nil hnil).trans ht) 0, ?_⟩
    rw [State.ended, engineTurn_inputs ht, hnil, busy_of_engineTurn h ht]
    rfl
  | succ n ih =>
    obtain ⟨t, ht⟩ := step_next fun x hx => hin x (List.mem_of_mem_head? hx)
    have htail := step_inputs ht
    obtain ⟨u, hu, hended⟩ := ih (stepKeepsInvariant s t h ht)
      (by rw [htail, List.length_tail, hlen, Nat.add_sub_cancel])
      fun x hx => hin x (List.mem_of_mem_tail (htail ▸ hx))
    exact ⟨u, (run_succ ht _).trans hu, hended⟩

/-- Settles O50: each step takes one input and keeps the invariant, and the last one is the ENGINE's. -/
theorem everyRunEndsIdle : Obligations.EveryRunEndsIdle := fun _ h hin => h.run_ends rfl hin

/-! ## Transactions while a command is in flight -/

/-- What a transaction in flight leaves alone (42_control.md R102): all that the command reads, and
ERR and ILL where they are clear. -/
structure Undisturbed (s u : State) : Prop where
  width : u.width = s.width
  param : u.param = s.param
  mem : u.mem = s.mem
  opl : u.opl = s.opl
  hidden : u.hidden = s.hidden
  draws : u.draws = s.draws
  rst : u.rst = s.rst
  busy : u.status.busy = s.status.busy
  err : s.status.err = false → u.status.err = false
  ill : s.status.ill = false → u.status.ill = false

theorem Undisturbed.refl (s : State) : Undisturbed s s := ⟨rfl, rfl, rfl, rfl, rfl, rfl, rfl, rfl, id, id⟩

theorem Undisturbed.trans {s t u : State} (h : Undisturbed s t) (h' : Undisturbed t u) : Undisturbed s u where
  width := h'.width.trans h.width
  param := h'.param.trans h.param
  mem := h'.mem.trans h.mem
  opl := h'.opl.trans h.opl
  hidden := h'.hidden.trans h.hidden
  draws := h'.draws.trans h.draws
  rst := h'.rst.trans h.rst
  busy := h'.busy.trans h.busy
  err := h'.err ∘ h.err
  ill := h'.ill ∘ h.ill

theorem Undisturbed.inFlight {s u : State} (h : Undisturbed s u) (hs : inFlight s) : inFlight u :=
  ⟨h.rst.trans hs.1, h.busy.trans hs.2⟩

theorem undisturbed_withInputs (s : State) (xs : List Input) : Undisturbed s { s with inputs := xs } :=
  ⟨rfl, rfl, rfl, rfl, rfl, rfl, rfl, rfl, id, id⟩

theorem undisturbed_busRead (q : BitVec 12) (s : State) : Undisturbed s (busRead q s) := by
  rcases busRead_cases q s with ⟨v, h⟩ | ⟨-, -, -, h⟩ <;> rw [h] <;>
    exact ⟨rfl, rfl, rfl, rfl, rfl, rfl, rfl, rfl, id, id⟩

/-- In flight only CTRL and STATUS take a write (40_host_port.md R77). -/
theorem undisturbed_busWrite {s : State} (hs : inFlight s) (q : BitVec 12) (d : BusWord) :
    Undisturbed s (busWrite q d s) := by
  obtain ⟨-, hb⟩ := hs
  rcases busWrite_cases q d s with ⟨-, h⟩ | ⟨-, -, -, h⟩ | ⟨-, hg, h⟩ <;> rw [h]
  · exact .refl s
  · exact ⟨rfl, rfl, rfl, rfl, rfl, rfl, rfl, rfl, id, id⟩
  · have hopen : (region s.width q).writeGuarded = false := hg.resolve_left (by rw [hb]; decide)
    cases hr : region s.width q <;> rw [hr] at hopen
    case ctrl => exact ⟨rfl, rfl, rfl, rfl, rfl, rfl, rfl, rfl, id, id⟩
    case status =>
      refine ⟨rfl, rfl, rfl, rfl, rfl, rfl, rfl, rfl, fun he => ?_, fun hi => ?_⟩
      · rw [writeRegion, Status.writeOneToClear, he, Bool.false_and]
      · rw [writeRegion, Status.writeOneToClear, hi, Bool.false_and]
    case cfg | rsvd => exact .refl s
    all_goals cases hopen

theorem step_transaction {s : State} {w : BitVec 45} {rest : List Input} (hs : inFlight s)
    (hin : s.inputs = .transaction w :: rest) :
    ∃ t, step s = .next t ∧ t.inputs = rest ∧ Undisturbed s t := by
  have hu := undisturbed_withInputs s rest
  rw [step_of_cons hin, stepInput]
  rcases decodeTransaction_cases w with ⟨q, d, hw⟩ | ⟨q, d, hw⟩ <;> rw [hw]
  · exact ⟨_, exec_rd q d _, busRead_inputs q _, hu.trans (undisturbed_busRead q _)⟩
  · exact ⟨_, exec_wr q d _, busWrite_inputs q d _, hu.trans (undisturbed_busWrite (hu.inFlight hs) q d)⟩

/-- Any number of transactions in flight leaves the command undisturbed. -/
theorem run_transactions {s : State} {ts : List (BitVec 45)} {rest : List Input} (hs : inFlight s)
    (hin : s.inputs = ts.map Input.transaction ++ rest) :
    ∃ u : State, core.run ts.length s = .next u ∧ u.inputs = rest ∧ Undisturbed s u := by
  induction ts generalizing s with
  | nil => exact ⟨s, rfl, hin, .refl s⟩
  | cons w ts ih =>
    obtain ⟨t, ht, htin, htu⟩ := step_transaction hs hin
    obtain ⟨u, hu, huin, huu⟩ := ih (htu.inFlight hs) htin
    exact ⟨u, (run_succ ht _).trans hu, huin, htu.trans huu⟩

/-! ## The completion after them -/

/-- A command's result in memory is a function of w, PARAM, memory and the draw number, and what it leaves
in the hidden registers depends beside them on these registers alone. -/
theorem runOp_congr (op : EngineOp) {s u : State} (hw : u.width = s.width) (hp : u.param = s.param)
    (hm : u.mem = s.mem) (hd : u.draws = s.draws) : (runOp op u).mem = (runOp op s).mem ∧
      (u.hidden = s.hidden → (runOp op u).hidden = (runOp op s).hidden) := by
  obtain ⟨w, c, p, st, o, m, h, r, v, xs, d⟩ := s
  obtain ⟨w', c', p', st', o', m', h', r', v', xs', d'⟩ := u
  cases hw; cases hp; cases hm; cases hd
  cases op <;>
    simp only [runOp, keySchedule, runRc5Encrypt, runRc5Decrypt, runRc6Encrypt, runRc6Decrypt] <;>
    split <;> exact ⟨rfl, fun hh => by cases hh; rfl⟩

/-- ERR is set by a setup with invalid parameters and by nothing else (60_exceptions.md R124). -/
theorem runOp_err (op : EngineOp) (s : State) : (runOp op s).status.err =
    (s.status.err || ((setupExtra op).isSome && !setupValid s.width s.param)) := by
  rcases setup_or_crypt op with ⟨x, hx⟩ | ⟨n, hn⟩
  · obtain ⟨-, -, -, -, -, -, -, -, -, hstatus⟩ := keySchedule_frame x s
    rw [runOp_setup hx, hstatus, hx, Option.isSome_some, Bool.true_and]
  · rw [runOp_crypt_status hn, setupExtra_of_cryptWords hn, Option.isSome_none, Bool.false_and, Bool.or_false]

theorem Undisturbed.runOp_err {s u : State} (h : Undisturbed s u) (he : s.status.err = false)
    (op : EngineOp) : (runOp op u).status.err = (runOp op s).status.err := by
  rw [Machine.runOp_err, Machine.runOp_err, he, h.err he, h.width, h.param]

/-- Settles O51: transactions in flight leave the command undisturbed, and its result is a function of
what they leave. -/
theorem commandInputsAreStable : Obligations.CommandInputsAreStable := by
  intro s op ts hs ho
  obtain ⟨u, hrun, -, hu⟩ := run_transactions (s := { s with inputs := ts.map Input.transaction })
    (ts := ts) (rest := []) hs (List.append_nil _).symm
  have hsu : Undisturbed s u := (undisturbed_withInputs s _).trans hu
  obtain ⟨hmem, hhidden⟩ := runOp_congr op hsu.width hsu.param hsu.mem hsu.draws
  refine ⟨u, hrun, hsu.inFlight hs, hsu.opl.trans ho, hsu.param, hsu.mem, _, _, exec_op op s, exec_op op u,
    hmem, ?_, ?_, fun he => hsu.runOp_err he op⟩
  · obtain ⟨-, -, hps, -⟩ := completed_runOp op s
    obtain ⟨-, -, hpu, -⟩ := completed_runOp op u
    rw [hps, hpu, hsu.param]
  · rw [State.complete_hidden, State.complete_hidden, hhidden hsu.hidden]

/-- The ENGINE's turn, given as an input, completes the command in flight (42_control.md R99). -/
theorem step_engine {s : State} {op : EngineOp} (hs : inFlight s) (ho : s.opl = some op)
    (hin : s.inputs = [.engine]) : step s = .next (runOp op { s with inputs := [] }).complete := by
  rw [step_of_cons hin, ← exec_op]
  exact engineTurn_inFlight (s := { s with inputs := [] }) hs ho

/-- The first step of `issue` accepts the command. -/
theorem step_issue {s : State} (hs : idle s) (op : EngineOp) (ts : List (BitVec 45)) :
    step { s with inputs := issue op ts } = .next
      (({ s with inputs := ts.map Input.transaction ++ [.engine] } : State).clearForAccept.latch op) := by
  rw [step_of_cons rfl, stepInput]
  exact (congrArg (exec · _) (decodeTransaction_append true 3 (opWord op))).trans
    (exec_wr_cmd_engine (s := { s with inputs := ts.map Input.transaction ++ [.engine] }) hs op)

theorem setupOk_congr {s u : State} (hw : u.width = s.width) (hp : u.param = s.param) :
    setupOk u ↔ setupOk s := by
  rw [setupOk, setupOk, hw, hp]

/-- From ERR = 0, ERR = 1 means a setup with invalid parameters (60_exceptions.md R124). -/
theorem runOp_err_iff {op : EngineOp} {s : State} (he : s.status.err = false) :
    (runOp op s).status.err = true ↔ setupExtra op ≠ none ∧ ¬ setupOk s := by
  rw [runOp_err, he, Bool.false_or, Bool.and_eq_true, Option.isSome_iff_ne_none, setupOk_iff,
    Bool.not_eq_true, Bool.not_eq_true']

/-- Settles O52: acceptance clears ERR and ILL and latches the command, transactions leave it undisturbed,
and the ENGINE's turn completes it on what they leave. -/
theorem issuedCommandRunsToCompletion : Obligations.IssuedCommandRunsToCompletion := by
  intro s op ts hs
  have haccept := step_issue hs op ts
  obtain ⟨v, hrun, hvin, hv⟩ := run_transactions (ts := ts) (rest := [.engine])
    (s := ({ s with inputs := ts.map Input.transaction ++ [.engine] } : State).clearForAccept.latch op)
    ⟨hs.1, rfl⟩ rfl
  have hturn := step_engine (hv.inFlight ⟨hs.1, rfl⟩) hv.opl hvin
  obtain ⟨hw, -, hp, -, -, -, hin, hbusy, hdone, hill, -⟩ := completed_runOp op { v with inputs := [] }
  obtain ⟨hmem, -⟩ := runOp_congr op (s := s) (u := { v with inputs := [] }) hv.width hv.param hv.mem
    hv.draws
  refine ⟨_, _, (run_succ haccept _).trans (run_concat hrun hturn), exec_op op s, hmem,
    hp.trans hv.param, hw.trans hv.width, hbusy, hdone, hill.trans (hv.ill rfl), ?_, ?_⟩
  · exact (runOp_err_iff (s := { v with inputs := [] }) (hv.err rfl)).trans
      (and_congr_right fun _ => not_congr (setupOk_congr hv.width hv.param))
  · rw [State.ended, hin, hbusy]
    rfl

/-! ## Hidden registers -/

theorem runOp_withHidden (op : EngineOp) (s : State) (h : Hidden) :
    ∃ h', runOp op { s with hidden := h } = { runOp op s with hidden := h' } := by
  cases op <;>
    simp only [runOp, keySchedule, runRc5Encrypt, runRc5Decrypt, runRc6Encrypt, runRc6Decrypt] <;>
    split <;> exact ⟨_, rfl⟩

theorem engineTurn_withHidden {s t : State} (ht : engineTurn s = .next t) (h : Hidden) :
    ∃ h', engineTurn { s with hidden := h } = .next { t with hidden := h' } := by
  rcases engineTurn_cases s with ⟨hr, hb, op, ho, hturn⟩ | ⟨hr, hb, ho, hturn⟩ | ⟨hoff, hturn⟩ <;>
    (rw [hturn] at ht; cases ht)
  · obtain ⟨h', hop⟩ := runOp_withHidden op s h
    refine ⟨{ h' with phase := .idle }, ?_⟩
    rw [engineTurn_inFlight (s := { s with hidden := h }) ⟨hr, hb⟩ ho, exec_op, hop]
    rfl
  · exact ⟨{ h with phase := .idle }, by simp [engineTurn, hr, hb, ho, State.complete]⟩
  · exact ⟨h, engineTurn_disabled (s := { s with hidden := h }) hoff⟩

/-- No location shows a hidden register (10_state.md R36). -/
theorem readRegion_withHidden (s : State) (h : Hidden) (r : Region) :
    readRegion { s with hidden := h } r = readRegion s r := by cases r <;> rfl

theorem busRead_withHidden (q : BitVec 12) (s : State) (h : Hidden) :
    busRead q { s with hidden := h } = { busRead q s with hidden := h } := by
  simp only [busRead, readRegion_withHidden]
  split
  · rfl
  · split <;> rfl

theorem accept_withHidden (d : BusWord) (s : State) (h : Hidden) :
    ∃ h', accept d { s with hidden := h } = { accept d s with hidden := h' } := by
  rcases accept_cases d s with ⟨⟨e, he⟩, ha⟩ | ⟨i, hi, ho, ha⟩ | ⟨i, op, hi, ho, ha⟩
  · exact ⟨h, by rw [ha, accept_illegal he]; rfl⟩
  · refine ⟨h, ?_⟩
    rw [ha]
    simp only [accept, hi, ho]
    rfl
  · exact ⟨{ h with phase := .inFlight }, by rw [ha, accept_engine hi ho]; rfl⟩

theorem busWrite_withHidden (q : BitVec 12) (d : BusWord) (s : State) (h : Hidden) :
    ∃ h', busWrite q d { s with hidden := h } = { busWrite q d s with hidden := h' } := by
  unfold busWrite
  split
  · exact ⟨h, rfl⟩
  · split
    · exact ⟨h, rfl⟩
    · show ∃ h', writeRegion { s with hidden := h } d (region s.width q) =
        { writeRegion s d (region s.width q) with hidden := h' }
      cases region s.width q
      case cmd => exact accept_withHidden d s h
      all_goals exact ⟨h, rfl⟩

/-- A step that answers does so whatever the hidden registers hold, and differs in them alone. -/
theorem step_withHidden {s t : State} (ht : step s = .next t) (h : Hidden) :
    ∃ h', step { s with hidden := h } = .next { t with hidden := h' } := by
  rcases step_cases ht with ⟨hin, hturn⟩ | ⟨x, rest, hin, hx⟩
  · rw [step_of_nil (s := { s with hidden := h }) hin]
    exact engineTurn_withHidden hturn h
  · rw [step_of_cons (s := { s with hidden := h }) hin]
    rcases hx with ⟨rfl, hturn⟩ | ⟨rfl, rfl⟩ | ⟨rfl, rfl⟩ | ⟨w, q, d, rfl, hw, rfl⟩ | ⟨w, q, d, rfl, hw, rfl⟩
    · exact engineTurn_withHidden hturn h
    · exact ⟨Hidden.reset s.width, rfl⟩
    · exact ⟨h, rfl⟩
    · refine ⟨h, ?_⟩
      rw [stepInput, hw, exec_rd]
      exact congrArg _ (busRead_withHidden q { s with inputs := rest } h)
    · obtain ⟨h', hwr⟩ := busWrite_withHidden q d { s with inputs := rest } h
      refine ⟨h', ?_⟩
      rw [stepInput, hw, exec_wr]
      exact congrArg _ hwr

theorem run_withHidden {n : Nat} {s t : State} (hrun : core.run n s = .next t) (h : Hidden) :
    ∃ h', core.run n ({ s with hidden := h } : State) = .next { t with hidden := h' } := by
  induction n generalizing s h with
  | zero =>
    cases hrun
    exact ⟨h, rfl⟩
  | succ n ih =>
    obtain ⟨v, hv, hrest⟩ := first_step_of_run hrun
    obtain ⟨h', hv'⟩ := step_withHidden hv h
    rw [run_succ hv']
    exact ih hrest h'

theorem readValues_withHidden (n : Nat) (s : State) (h : Hidden) :
    readValues n { s with hidden := h } = readValues n s := by
  induction n generalizing s h with
  | zero => rfl
  | succ n ih =>
    cases hs : step s with
    | next t =>
      obtain ⟨h', hs'⟩ := step_withHidden hs h
      simp only [readValues, hs, hs', ih]
    | fault r => cases r
    | refused r =>
      cases hs' : step { s with hidden := h } with
      | next u =>
        obtain ⟨h', hback⟩ := step_withHidden hs' s.hidden
        cases hs.symm.trans hback
      | fault r' => cases r'
      | refused r' => simp only [readValues, hs, hs']

/-- Settles O53: runs from states that differ in the hidden registers go in step, and neither a read nor the
observation shows these registers. -/
theorem hiddenStateIsUnobservable : Obligations.HiddenStateIsUnobservable := by
  refine fun n s t h => ⟨readValues_withHidden n s h, fun hrun => ?_⟩
  obtain ⟨h', hrun'⟩ := run_withHidden hrun h
  exact ⟨h', hrun', rfl⟩

/-! ## Who writes what -/

/-- A location the host can write: KEY, BLK_IN, or a mapped one of the S window (20_memory.md R44). -/
def hostWritable (w : WordWidth) (q : BitVec 12) : Prop :=
  (inByteWindow q ∧ addr q < 0x240) ∨ inSWindow w q

theorem read_windowWrite_ne {m : Memory} {a b : Nat} {d : BusWord} {hbe : Bool}
    (h : (windowWrite m a d hbe).read b ≠ m.read b) : a ≤ b ∧ b < a + 4 := by
  by_contra hout
  exact h (read_windowWrite_out (by omega))

theorem read_sWrite_ne {w : WordWidth} {m : Memory} {n b : Nat} {d : BusWord}
    (h : (sWrite w m n d).read b ≠ m.read b) : sBase + 4 * n ≤ b ∧ b < sBase + 4 * n + 4 := by
  by_contra hout
  exact h (read_sWrite_out (by omega))

/-- A host write changes the four bytes of its location alone, and only while idle (40_host_port.md R77,
R79). -/
theorem read_busWrite_ne {s : State} {q : BitVec 12} {d : BusWord} {a : Nat}
    (h : (busWrite q d s).mem.read a ≠ s.mem.read a) :
    idle s ∧ addr q ≤ a ∧ a < addr q + 4 ∧ hostWritable s.width q := by
  rcases busWrite_cases q d s with ⟨-, hwr⟩ | ⟨-, -, -, hwr⟩ | ⟨hr, hg, hwr⟩ <;> rw [hwr] at h
  · exact absurd rfl h
  · exact absurd rfl h
  · rcases region_cases s.width q with ⟨-, hq⟩ | ⟨-, hq⟩ | ⟨-, hq⟩ | ⟨-, hq⟩ | ⟨-, hq⟩ | ⟨n, hq, ha, hn⟩ |
      ⟨n, hq, ha, hn⟩ | ⟨n, hq, -⟩ | ⟨n, hq, ha, hn⟩ | hq <;> rw [hq] at h hg
    · exact absurd rfl h
    · exact absurd rfl h
    · exact absurd rfl h
    · obtain ⟨-, -, -, hmem, -⟩ := accept_frame d s
      exact absurd (congrArg (·.read a) hmem) h
    · exact absurd rfl h
    · obtain ⟨hlo, hhi⟩ := read_windowWrite_ne h
      rw [← ha] at hlo hhi
      refine ⟨⟨hr, hg.resolve_right nofun⟩, hlo, hhi, .inl ?_⟩
      unfold inByteWindow addr
      unfold keyBase at ha
      omega
    · obtain ⟨hlo, hhi⟩ := read_windowWrite_ne h
      rw [← ha] at hlo hhi
      refine ⟨⟨hr, hg.resolve_right nofun⟩, hlo, hhi, .inl ?_⟩
      unfold inByteWindow addr
      unfold binBase at ha
      omega
    · exact absurd rfl h
    · obtain ⟨hlo, hhi⟩ := read_sWrite_ne h
      rw [← ha] at hlo hhi
      unfold sBase at ha
      have hslice : (addr q - 0x2000) / 4 = n := by unfold addr; omega
      exact ⟨⟨hr, hg.resolve_right nofun⟩, hlo, hhi, .inr ⟨by unfold addr; omega, by rwa [hslice]⟩⟩
    · exact absurd rfl h

/-- The ENGINE completes the command in flight, or rst = 1 aborts it, in this step. -/
def endsCommand (s : State) : Prop :=
  completing s ∨ (s.status.busy = true ∧ s.inputs.head? = some (.rst true))

theorem read_engineTurn_ne {s t : State} {a : Nat} (ht : engineTurn s = .next t)
    (h : t.mem.read a ≠ s.mem.read a) : inFlight s ∧ inWriteSet s a := by
  rcases engineTurn_cases s with ⟨hr, hb, op, ho, hturn⟩ | ⟨-, -, -, hturn⟩ | ⟨-, hturn⟩ <;>
    (rw [hturn] at ht; cases ht)
  · refine ⟨⟨hr, hb⟩, ?_⟩
    by_contra hout
    exact h (read_runOp_of_not_inWriteSet hb ho hout)
  · exact absurd rfl h
  · exact absurd rfl h

@[simp] theorem busRead_mem (q : BitVec 12) (s : State) : (busRead q s).mem = s.mem := by
  rcases busRead_cases q s with ⟨v, h⟩ | ⟨-, -, -, h⟩ <;> rw [h]
  rfl

/-- A byte changes in the write set of a command that ends, or in a location the host writes while idle. -/
theorem read_step_ne {s t : State} {a : Nat} (hstep : step s = .next t) (h : t.mem.read a ≠ s.mem.read a) :
    (inWriteSet s a ∧ endsCommand s) ∨
    (idle s ∧ ∃ q d, writing s q d ∧ addr q ≤ a ∧ a < addr q + 4 ∧ hostWritable s.width q) := by
  rcases step_cases hstep with ⟨hin, hturn⟩ | ⟨x, rest, hin, hx⟩
  · obtain ⟨hs, ha⟩ := read_engineTurn_ne hturn h
    exact .inl ⟨ha, .inl ⟨hs, .inl hin⟩⟩
  · have hhead : s.inputs.head? = some x := by rw [hin]; rfl
    rcases hx with ⟨rfl, hturn⟩ | ⟨rfl, rfl⟩ | ⟨-, rfl⟩ | ⟨w, q, d, -, -, rfl⟩ | ⟨w, q, d, rfl, hw, rfl⟩
    · obtain ⟨hs, ha⟩ := read_engineTurn_ne hturn h
      exact .inl ⟨ha, .inl ⟨hs, .inr hhead⟩⟩
    · have ha : inWriteSet s a := by
        by_contra hout
        exact h (read_abortMemory_of_not_inWriteSet (s := { s with inputs := rest }) hout)
      exact .inl ⟨ha, .inr ⟨ha.1, hhead⟩⟩
    · exact absurd rfl h
    · exact absurd (by rw [busRead_mem]) h
    · obtain ⟨hs, hlo, hhi, hq⟩ := read_busWrite_ne h
      exact .inr ⟨hs, q, d, ⟨w, hhead, hw⟩, hlo, hhi, hq⟩

/-- Where the write set of a command is: in BOUT for a crypt command, in the table for a valid setup. -/
theorem inWriteSet_cases {s : State} {a : Nat} (ha : inWriteSet s a) : ∃ op, s.opl = some op ∧
    ((∃ n, cryptWords op = some n ∧ boutBase ≤ a ∧ a < boutBase + n * s.width.bytes) ∨
    (∃ x, setupExtra op = some x ∧ setupOk s ∧ ∃ k < tableLength x s.param, ∃ i < s.width.bytes,
      a = sAddr s.width k + i)) := by
  have hb : s.status.busy = true := ha.1
  cases ho : s.opl with
  | none => exact absurd ha (not_inWriteSet_of_none (.inr ho))
  | some op =>
    refine ⟨op, rfl, ?_⟩
    rcases setup_or_crypt op with ⟨x, hx⟩ | ⟨n, hn⟩
    · exact .inr ⟨x, hx, (inWriteSet_setup hb ho hx).mp ha⟩
    · exact .inl ⟨n, hn, (inWriteSet_crypt hb ho hn).mp ha⟩

theorem boutBase_le_of_inWriteSet {s : State} {a : Nat} (ha : inWriteSet s a) : 0x240 ≤ a := by
  obtain ⟨op, -, ⟨n, -, hlo, -⟩ | ⟨x, -, -, k, -, i, -, rfl⟩⟩ := inWriteSet_cases ha
  · exact hlo
  · unfold sAddr sBase
    omega

/-- No command writes below BOUT: only the host does (10_state.md R31, R33). -/
theorem read_step_ne_below {s t : State} {a : Nat} (hstep : step s = .next t) (ha : a < 0x240)
    (h : t.mem.read a ≠ s.mem.read a) :
    idle s ∧ ∃ q d, writing s q d ∧ addr q ≤ a ∧ a < addr q + 4 := by
  rcases read_step_ne hstep h with ⟨hset, -⟩ | ⟨hs, q, d, hwr, hlo, hhi, -⟩
  · exact absurd (boutBase_le_of_inWriteSet hset) (Nat.not_le.mpr ha)
  · exact ⟨hs, q, d, hwr, hlo, hhi⟩

/-- A BOUT byte in a write set belongs to the block of a crypt command. -/
theorem crypt_of_inWriteSet_bout {s : State} {i : Nat} (hi : i < 64) (ha : inWriteSet s (0x240 + i)) :
    ∃ op n, s.opl = some op ∧ cryptWords op = some n ∧ i < n * s.width.bytes := by
  obtain ⟨op, ho, ⟨n, hn, -, hhi⟩ | ⟨x, -, -, k, -, j, -, hj⟩⟩ := inWriteSet_cases ha
  · refine ⟨op, n, ho, hn, ?_⟩
    unfold boutBase at hhi
    omega
  · unfold sAddr sBase at hj
    omega

/-- A byte of an entry belongs to that entry alone. -/
theorem sAddr_add_inj {w : WordWidth} {j k i m : Nat} (hi : i < w.bytes) (hm : m < w.bytes)
    (h : sAddr w j + i = sAddr w k + m) : j = k := by
  rcases Nat.lt_trichotomy j k with hlt | heq | hgt
  · have := sAddr_lt (w := w) hlt
    omega
  · exact heq
  · have := sAddr_lt (w := w) hgt
    omega

/-- A byte of an entry in a write set: the entry is in the table of a valid setup. -/
theorem setup_of_inWriteSet_entry {s : State} {k m : Nat} (hm : m < s.width.bytes)
    (ha : inWriteSet s (sAddr s.width k + m)) :
    ∃ op x, s.opl = some op ∧ setupExtra op = some x ∧ setupOk s ∧ k < 2 * s.param.pr.toNat + x := by
  obtain ⟨op, ho, ⟨n, hn, -, hhi⟩ | ⟨x, hx, hok, j, hj, i, hi, hji⟩⟩ := inWriteSet_cases ha
  · have hlen : n * s.width.bytes ≤ 4 * 16 := Nat.mul_le_mul (cryptWords_le hn) s.width.bytes_le
    unfold sAddr sBase boutBase at hhi
    omega
  · rw [sAddr_add_inj hm hi hji]
    exact ⟨op, x, ho, hx, hok, hj⟩

/-- A location that holds a byte of entry k is a location of entry k (20_memory.md R50). -/
theorem location_of_entry {w : WordWidth} {q : BitVec 12} {k m : Nat} (hm : m < w.bytes)
    (hlo : addr q ≤ sAddr w k + m) (hhi : sAddr w k + m < addr q + 4) :
    0x2000 ≤ addr q ∧ (addr q - 0x2000) / 4 / w.nsw = k := by
  have hstride := w.bytes_le_stride
  have hslice : (addr q - 0x2000) / 4 = w.nsw * k + m / 4 := by
    unfold addr sAddr sBase at *
    omega
  refine ⟨by unfold addr sAddr sBase at *; omega, ?_⟩
  rw [hslice, Nat.mul_add_div w.nsw_pos, Nat.div_eq_of_lt (by omega), Nat.add_zero]

/-- An entry changes in one of its bytes. -/
theorem exists_byte_of_entry_ne {w : WordWidth} {m m' : Memory} {k : Nat}
    (h : entry w m'.read k ≠ entry w m.read k) :
    ∃ i < w.bytes, m'.read (sAddr w k + i) ≠ m.read (sAddr w k + i) := by
  by_contra hsame
  push Not at hsame
  rw [entry_eq_sEntry, entry_eq_sEntry] at h
  exact h (packLE_congr hsame)

/-- Settles O54: a byte changes in the write set of a command that ends or by an idle host write of its
location, and each buffer meets one of these in its own address range. -/
theorem storageHasItsOwnWriters : Obligations.StorageHasItsOwnWriters := by
  refine fun s t hstep => ⟨fun i hi h => ?_, fun i hi h => ?_, fun i hi h => ?_, fun k _ h => ?_⟩
  · obtain ⟨hs, q, d, hwr, hlo, hhi⟩ := read_step_ne_below hstep (by omega) h
    exact ⟨hs, q, d, hwr, by unfold addr at *; omega⟩
  · obtain ⟨hs, q, d, hwr, hlo, hhi⟩ := read_step_ne_below hstep (by omega) h
    exact ⟨hs, q, d, hwr, by unfold addr at *; omega⟩
  · rcases read_step_ne hstep h with ⟨ha, hend⟩ | ⟨-, q, d, -, hlo, hhi, ⟨-, hq⟩ | ⟨hq, -⟩⟩
    · obtain ⟨op, n, ho, hn, hin⟩ := crypt_of_inWriteSet_bout hi ha
      exact ⟨op, n, ho, hn, hin, hend⟩
    · unfold addr at *
      omega
    · omega
  · obtain ⟨m, hm, hbyte⟩ := exists_byte_of_entry_ne h
    rcases read_step_ne hstep hbyte with ⟨ha, hend⟩ | ⟨hs, q, d, hwr, hlo, hhi, -⟩
    · obtain ⟨op, x, ho, hx, hok, hk⟩ := setup_of_inWriteSet_entry hm ha
      exact .inl ⟨op, x, ho, hx, hok, hk, hend⟩
    · exact .inr ⟨hs, q, d, hwr, location_of_entry hm hlo hhi⟩

end Sys2Proof.Machine
end
